-- ==== Sys2Proof/Word.lean ====
section
/-! DEFINITION. The units HUFFCORE moves: bytes, header words, bits, symbols, handles, table entries, the elements of a
payload, and the command triple (spec 00_scope.md R13, R15; 10_state.md R23, R26; 30_encoding.md R56 to R58). -/

namespace Sys2Proof

/-- A byte: 8 bits, bit 0 the least significant (R11, R15). -/
abbrev Byte := BitVec 8

/-- The command header `HDR`: one 32-bit word (R56). -/
abbrev HeaderWord := BitVec 32

/-- A bit of the buffer, of a code, or the operand `B`; `false` is 0 (left), `true` is 1 (right) (R11, R67). -/
abbrev Bit := Bool

/-- A symbol, carried as the natural number that names it (R57); `Instr.wf` asks that it be below `2^SYM_W`.
DESIGN CHOICE, log entry 7. -/
abbrev Symbol := Nat

/-- A handle: the index of a node in `NODE` (R26). -/
abbrev Handle := Nat

/-- One entry `(sym, cnt)` of the frequency table (R23, R69). -/
structure Entry where
  sym : Symbol
  cnt : Nat
deriving DecidableEq, Repr

/-- One element of a command's payload `P` or of a response's payload `Q`: a symbol, a byte, a bit, a table entry or a
handle, by command (R28, R58, R61). Each element carries its type, so `[]` is one value. DESIGN CHOICE, log entry 12. -/
inductive Elem where
  | sym (s : Symbol)
  | byte (b : Byte)
  | bit (b : Bit)
  | entry (e : Entry)
  | handle (h : Handle)
deriving DecidableEq, Repr

/-- A command: the triple (`HDR`, `ARG`, `P`) (R56, R57, R58). -/
structure Command where
  hdr : HeaderWord
  arg : Nat
  p : List Elem
deriving DecidableEq, Repr

end Sys2Proof
end

