-- ==== Sys2Proof/Syntax.lean ====
section
/-! DEFINITION. The 17 commands of spec 30_encoding.md R62, one constructor per row of opcode_table.json, each with the
operands that R61 says it uses. An operand a command does not use is ignored (R57, R58), so it is no field. -/

namespace Sys2Proof

/-- A decoded command (R61, R62). -/
inductive Instr where
  /-- SYS_RESET (R121). -/
  | sysReset
  /-- SYS_RDSR: `ARG` is the register index (R122). -/
  | sysRdsr (index : Nat)
  /-- BB_CLEAR (R76). -/
  | bbClear
  /-- BB_APPEND: `B` is the bit (R77). -/
  | bbAppend (b : Bit)
  /-- BB_LEN (R78). -/
  | bbLen
  /-- BB_PACK (R79). -/
  | bbPack
  /-- BB_UNPACK: `ARG` is the exact bit count, `P` the bytes (R80). -/
  | bbUnpack (n : Nat) (bytes : List Byte)
  /-- FT_COUNT: `P` is the symbols (R86). -/
  | ftCount (syms : List Symbol)
  /-- FT_LOAD: `P` is the table entries (R87). -/
  | ftLoad (entries : List Entry)
  /-- FT_READ (R88). -/
  | ftRead
  /-- HT_BUILD (R93). -/
  | htBuild
  /-- HT_GETCODE: `ARG` is the symbol (R101). -/
  | htGetcode (arg : Nat)
  /-- HT_DESCEND: `ARG` is the node handle, `B` the direction (R102). -/
  | htDescend (h : Nat) (b : Bit)
  /-- HT_ISLEAF: `ARG` is the node handle (R103). -/
  | htIsleaf (h : Nat)
  /-- HT_NODE: `ARG` is the node handle (R104). -/
  | htNode (h : Nat)
  /-- CD_ENCODE: `P` is the symbols (R111). -/
  | cdEncode (syms : List Symbol)
  /-- CD_DECODE (R117). -/
  | cdDecode
deriving DecidableEq, Repr

end Sys2Proof
end

