-- ==== Sys2Proof/Decode.lean ====
section
/-! DEFINITION. The opcode map (spec 30_encoding.md R62), the decoder (R56, R61, R63, R64) and the encoder (R65), and the
opcode table's numbering of a header (decodeTableWord). -/

namespace Sys2Proof

/-- The 17 mnemonics of R62. -/
inductive Opcode where
  | SYS_RESET | SYS_RDSR
  | BB_CLEAR | BB_APPEND | BB_LEN | BB_PACK | BB_UNPACK
  | FT_COUNT | FT_LOAD | FT_READ
  | HT_BUILD | HT_GETCODE | HT_DESCEND | HT_ISLEAF | HT_NODE
  | CD_ENCODE | CD_DECODE
deriving DecidableEq, Repr

/-- One row of R62: a header `w` selects the command when `w AND mask = match`. -/
structure OpcodeRow where
  op : Opcode
  matchBits : HeaderWord
  mask : HeaderWord
deriving DecidableEq, Repr

/-- The opcode map of R62, row by row. -/
def opcodeTable : List OpcodeRow := [
  ⟨.SYS_RESET,  0x00000001#32, 0xFFFFFFFF#32⟩,
  ⟨.SYS_RDSR,   0x00000002#32, 0xFFFFFFFF#32⟩,
  ⟨.BB_CLEAR,   0x00000010#32, 0xFFFFFFFF#32⟩,
  ⟨.BB_APPEND,  0x00000011#32, 0xFFFFFEFF#32⟩,
  ⟨.BB_LEN,     0x00000012#32, 0xFFFFFFFF#32⟩,
  ⟨.BB_PACK,    0x00000013#32, 0xFFFFFFFF#32⟩,
  ⟨.BB_UNPACK,  0x00000014#32, 0xFFFFFFFF#32⟩,
  ⟨.FT_COUNT,   0x00000020#32, 0xFFFFFFFF#32⟩,
  ⟨.FT_LOAD,    0x00000021#32, 0xFFFFFFFF#32⟩,
  ⟨.FT_READ,    0x00000022#32, 0xFFFFFFFF#32⟩,
  ⟨.HT_BUILD,   0x00000030#32, 0xFFFFFFFF#32⟩,
  ⟨.HT_GETCODE, 0x00000031#32, 0xFFFFFFFF#32⟩,
  ⟨.HT_DESCEND, 0x00000032#32, 0xFFFFFEFF#32⟩,
  ⟨.HT_ISLEAF,  0x00000033#32, 0xFFFFFFFF#32⟩,
  ⟨.HT_NODE,    0x00000034#32, 0xFFFFFFFF#32⟩,
  ⟨.CD_ENCODE,  0x00000040#32, 0xFFFFFFFF#32⟩,
  ⟨.CD_DECODE,  0x00000041#32, 0xFFFFFFFF#32⟩]

/-- The row a header selects: `w AND mask = match` (R62). -/
def OpcodeRow.selects (r : OpcodeRow) (w : HeaderWord) : Bool := decide (w &&& r.mask = r.matchBits)

/-- The command a header selects, if any (R62, R64: "A decoder needs `HDR` alone to know the command"). -/
def selectOpcode (w : HeaderWord) : Option Opcode := (opcodeTable.find? (·.selects w)).map (·.op)

/-- The field `OP`, bits 7:0 of the header (R56). -/
def opField (w : HeaderWord) : BitVec 8 := w.extractLsb' 0 8

/-- The field `B`, bit 8 of the header (R56). -/
def bField (w : HeaderWord) : Bit := w.getLsbD 8

/-- The field `ZERO`, bits 31:9 of the header (R56). -/
def zeroField (w : HeaderWord) : BitVec 23 := w.extractLsb' 9 23

/-- What makes a header illegal: the three cases of R63. -/
inductive HeaderFlaw where
  /-- A non-zero bit in `ZERO`. -/
  | reservedBits
  /-- An `OP` that is not in the table. -/
  | unknownOpcode
  /-- `B = 1` in a command that has no `B` operand. -/
  | strayB
deriving DecidableEq, Repr

/-- Which of the three cases of R63 an illegal header is. -/
def headerFlaw (w : HeaderWord) : HeaderFlaw :=
  if zeroField w ≠ 0 then .reservedBits
  else if opcodeTable.all (fun r => opField r.matchBits ≠ opField w) then .unknownOpcode
  else .strayB

/-- Why a command is rejected. -/
inductive Reject where
  /-- The header selects no command (R63): the core answers IllegalCommand. -/
  | illegalHeader (flaw : HeaderFlaw)
  /-- A payload element of another type than the command's: R58 says it "cannot be written down". -/
  | illTypedPayload
deriving DecidableEq, Repr

/-- The payload as symbols (R58: FT_COUNT, CD_ENCODE). -/
def symbolsOf : List Elem → Option (List Symbol)
  | [] => some []
  | .sym s :: es => (symbolsOf es).map (s :: ·)
  | _ :: _ => none

/-- The payload as bytes (R58: BB_UNPACK). -/
def bytesOf : List Elem → Option (List Byte)
  | [] => some []
  | .byte b :: es => (bytesOf es).map (b :: ·)
  | _ :: _ => none

/-- The payload as table entries (R58: FT_LOAD). -/
def entriesOf : List Elem → Option (List Entry)
  | [] => some []
  | .entry e :: es => (entriesOf es).map (e :: ·)
  | _ :: _ => none

/-- A typed payload, or the rejection R58 calls for. -/
def typedPayload {α : Type} (xs : Option (List α)) (make : List α → Instr) : Except Reject Instr :=
  match xs with
  | some l => .ok (make l)
  | none => .error .illTypedPayload

/-- The operands of R61, taken from the command once its header has selected `op`; operands the command does not use are
ignored (R57, R58). -/
def decodeOperands (op : Opcode) (c : Command) : Except Reject Instr :=
  match op with
  | .SYS_RESET => .ok .sysReset
  | .SYS_RDSR => .ok (.sysRdsr c.arg)
  | .BB_CLEAR => .ok .bbClear
  | .BB_APPEND => .ok (.bbAppend (bField c.hdr))
  | .BB_LEN => .ok .bbLen
  | .BB_PACK => .ok .bbPack
  | .BB_UNPACK => typedPayload (bytesOf c.p) (.bbUnpack c.arg)
  | .FT_COUNT => typedPayload (symbolsOf c.p) .ftCount
  | .FT_LOAD => typedPayload (entriesOf c.p) .ftLoad
  | .FT_READ => .ok .ftRead
  | .HT_BUILD => .ok .htBuild
  | .HT_GETCODE => .ok (.htGetcode c.arg)
  | .HT_DESCEND => .ok (.htDescend c.arg (bField c.hdr))
  | .HT_ISLEAF => .ok (.htIsleaf c.arg)
  | .HT_NODE => .ok (.htNode c.arg)
  | .CD_ENCODE => typedPayload (symbolsOf c.p) .cdEncode
  | .CD_DECODE => .ok .cdDecode

/-- The decoder: the header first (R136), then the operands. Total; every rejection has a name. -/
def decode (c : Command) : Except Reject Instr :=
  match selectOpcode c.hdr with
  | some op => decodeOperands op c
  | none => .error (.illegalHeader (headerFlaw c.hdr))

/-- The row's `match` column of R62, by mnemonic. -/
def Opcode.matchBits : Opcode → HeaderWord
  | .SYS_RESET => 0x01#32
  | .SYS_RDSR => 0x02#32
  | .BB_CLEAR => 0x10#32
  | .BB_APPEND => 0x11#32
  | .BB_LEN => 0x12#32
  | .BB_PACK => 0x13#32
  | .BB_UNPACK => 0x14#32
  | .FT_COUNT => 0x20#32
  | .FT_LOAD => 0x21#32
  | .FT_READ => 0x22#32
  | .HT_BUILD => 0x30#32
  | .HT_GETCODE => 0x31#32
  | .HT_DESCEND => 0x32#32
  | .HT_ISLEAF => 0x33#32
  | .HT_NODE => 0x34#32
  | .CD_ENCODE => 0x40#32
  | .CD_DECODE => 0x41#32

/-- R65: "`HDR = match` of its row in rule R62, plus `0x00000100` when its `B` operand is 1". -/
def headerWord (op : Opcode) (b : Bit) : HeaderWord := op.matchBits + (if b then 0x100#32 else 0#32)

/-- The mnemonic of a command. -/
def Instr.opcode : Instr → Opcode
  | .sysReset => .SYS_RESET
  | .sysRdsr _ => .SYS_RDSR
  | .bbClear => .BB_CLEAR
  | .bbAppend _ => .BB_APPEND
  | .bbLen => .BB_LEN
  | .bbPack => .BB_PACK
  | .bbUnpack _ _ => .BB_UNPACK
  | .ftCount _ => .FT_COUNT
  | .ftLoad _ => .FT_LOAD
  | .ftRead => .FT_READ
  | .htBuild => .HT_BUILD
  | .htGetcode _ => .HT_GETCODE
  | .htDescend _ _ => .HT_DESCEND
  | .htIsleaf _ => .HT_ISLEAF
  | .htNode _ => .HT_NODE
  | .cdEncode _ => .CD_ENCODE
  | .cdDecode => .CD_DECODE

/-- The operand `B` of a command, 0 where it has none (R61). -/
def Instr.bOperand : Instr → Bit
  | .bbAppend b => b
  | .htDescend _ b => b
  | _ => false

/-- The operand `ARG` of a command, 0 where it uses none (R61). -/
def Instr.argOperand : Instr → Nat
  | .sysRdsr index => index
  | .bbUnpack n _ => n
  | .htGetcode arg => arg
  | .htDescend h _ => h
  | .htIsleaf h => h
  | .htNode h => h
  | _ => 0

/-- The operand `P` of a command, `[]` where it uses none (R61). -/
def Instr.payload : Instr → List Elem
  | .bbUnpack _ bytes => bytes.map .byte
  | .ftCount syms => syms.map .sym
  | .ftLoad entries => entries.map .entry
  | .cdEncode syms => syms.map .sym
  | _ => []

/-- The encoder: the command triple of an instruction (R56, R61, R65). -/
def encode (i : Instr) : Command := ⟨headerWord i.opcode i.bOperand, i.argOperand, i.payload⟩

/-- The command whose header bits are the low `nbits` bits of `w`, as spec/opcode_table.json numbers them, with operand `ARG`
0 and an empty payload: the table gives the operands no bits. Log entry 16. -/
def tableCommand (nbits w : Nat) : Command := ⟨BitVec.ofNat 32 (w % 2 ^ nbits), 0, []⟩

/-- What the decoder reads from the header whose bits are `w`, numbered as spec/opcode_table.json numbers them; a word that
does not fit in the 32-bit header is no command. -/
def decodeTableWord (nbits w : Nat) : Option Instr :=
  if w % 2 ^ nbits < 2 ^ 32 then
    match decode (tableCommand nbits w) with
    | .ok i => some i
    | .error _ => none
  else none

end Sys2Proof
end

