-- ==== Sys2Proof/Config.lean ====
section
/-! DEFINITION. The implementation parameters of spec 00_scope.md R10. "The model takes the parameters of the table below as
arguments": they are plain data, carried by `State.params`, which no step changes, so a statement about every state is a
statement about every implementation. DESIGN CHOICE, log entry 1. The spec leaves no result open, so there is no free value
(no opaque constant) in this model. -/

namespace Sys2Proof

/-- `SYM_W`, `K_MAX`, `CNT_MAX`, `BITS_MAX` (R10). A capacity `none` is unbounded. -/
structure Params where
  /-- `SYM_W`: the width in bits of a symbol on the command interface. -/
  symW : Nat
  /-- `K_MAX`: the largest number of entries of the frequency table. -/
  kMax : Option Nat
  /-- `CNT_MAX`: the largest occurrence count and node frequency. -/
  cntMax : Option Nat
  /-- `BITS_MAX`: the largest length of the bit buffer, in bits. -/
  bitsMax : Option Nat
deriving DecidableEq, Repr

/-- The byte instance (R4, R10: `SYM_W = 8`) with every capacity unbounded ("With `K_MAX`, `CNT_MAX` and `BITS_MAX` all
unbounded the block behaves exactly as D0's contracts"). DESIGN CHOICE, log entry 1: the parameters of `State.reset`. -/
def Params.byteUnbounded : Params := { symW := 8, kMax := none, cntMax := none, bitsMax := none }

end Sys2Proof
end

