-- ==== Sys2Proof/Machine/State.lean ====
section
/-! DEFINITION. All the state spec 10_state.md gives HUFFCORE (R23 to R27, R34), the host's inputs and the responses given,
the reasons a step can stop, and the state after reset (R32, R146). Plain data: no field is a function. -/

namespace Sys2Proof.Machine

open Sys2Proof

/-- The status codes of R125 by name; their numbers are `Status.code`. No other code is ever produced. -/
inductive Status where
  | ok
  | unknownSymbol
  | truncated
  | structuralViolation
  | degenerateAlphabet
  | capacityExceeded
  | illegalCommand
  | illegalOperand
deriving DecidableEq, Repr

/-- A node of the tree (R25). -/
inductive Node where
  /-- `Leaf(sym, freq)`: "holds one Symbol and its frequency". -/
  | leaf (sym : Symbol) (freq : Nat)
  /-- `Internal(left, right, freq)`: the children are handles. -/
  | internal (left right : Handle) (freq : Nat)
deriving DecidableEq, Repr

/-- `TREE`: the nodes in handle order and the root, `none` being `NONE` (R25, R26). `NODECNT` is the length of `node`. -/
structure CodeTree where
  node : List Node
  root : Option Handle
deriving DecidableEq, Repr

/-- The empty tree: `NODECNT = 0`, `NODE = []`, `ROOT = NONE` (R26). -/
def CodeTree.empty : CodeTree := { node := [], root := none }

/-- A response: the quadruple (`ST`, `INFO`, `VAL`, `Q`) (R59). -/
structure Response where
  st : Status
  info : Nat
  val : Nat
  q : List Elem
deriving DecidableEq, Repr

/-- What the host can do to the block (R7, R146). -/
inductive HostEvent where
  /-- The host issues a command, after the response to the one before it (R153). -/
  | command (c : Command)
  /-- The reset event, between commands (R146). -/
  | reset
  /-- The reset event while this command is in progress: "A command in progress when reset arrives is abandoned and no
  response to it is given" (R146). -/
  | resetDuring (c : Command)
deriving DecidableEq, Repr

/-- The whole state of one HUFFCORE instance. -/
structure State where
  /-- The implementation parameters (R10), which no step changes. The model's own field, log entry 1. -/
  params : Params
  /-- `FT`, the frequency table, in insertion order (R23). -/
  ft : List Entry
  /-- `TREE` (R25). -/
  tree : CodeTree
  /-- `BITBUF`, the bit buffer (R24). -/
  bitbuf : List Bit
  /-- `STATUS`, status register 0 (R27). -/
  status : Status
  /-- `ERRINFO`, status register 1 (R27). -/
  errinfo : Nat
  /-- The host's inputs not yet taken, oldest first; the first command's fields are the operand registers `HDR`, `ARG`, `P`
  (R20; log entry 19). The model's own field, log entry 2. -/
  pending : List HostEvent
  /-- The responses given, oldest first; the last one's fields are the result registers `ST`, `INFO`, `VAL`, `Q` (R20). The
  model's own field, log entry 3. -/
  responses : List Response
deriving DecidableEq, Repr

/-- The reset state of an instance with the given parameters: every piece of state at its value of R32, no input waiting and
no response given. -/
def State.resetOf (p : Params) : State :=
  { params := p, ft := [], tree := CodeTree.empty, bitbuf := [], status := .ok, errinfo := 0, pending := [], responses := [] }

/-- The machine right after reset (R32, R146): the byte instance with unbounded capacities. DESIGN CHOICE, log entry 1. -/
def State.reset : State := State.resetOf Params.byteUnbounded

/-- The reasons the MACHINE stops with a fault: there is none. "A fault ends a command, never the machine; there is no stuck
state and no hang" (00_scope.md R17): every fault of the spec is a next state (R134). Nobody raises one; safe. DEDUCED, log
entry 10. -/
inductive Fault
deriving DecidableEq, Repr

/-- The reasons a step is given no meaning. -/
inductive Refusal where
  /-- An instruction without a meaning in exec, by its mnemonic. Raised by no arm of this model; safe. -/
  | notModelled (mnemonic : String)
  /-- Raised by issueCommand for a payload element of another type than the command's, or a payload symbol that is not one
  of the `2^SYM_W` symbols: R58 says such an element "cannot be written down", so no host offers it. Safe: the hardware has
  no such command. DEDUCED, log entry 6. -/
  | illTypedPayload
deriving DecidableEq, Repr

/-- The outcome of a step or of a meaning. -/
abbrev Result := Host.Outcome State Fault Refusal

end Sys2Proof.Machine
end

