-- ==== Sys2Proof/Machine/Ops.lean ====
section
/-! DEFINITION. The named operations over the state: capacity tests, the update of each piece of state, the index spaces of
spec 10_state.md R28, the response of a completed command (R59, R137), and the effect of a fault (60_exceptions.md R134), once
for every command. -/

namespace Sys2Proof.Machine

open Sys2Proof

/-! ## Capacities (R10, R131) -/

/-- `n` does not pass the capacity `bound`; every `n` fits an unbounded one. -/
def fits (bound : Option Nat) (n : Nat) : Bool :=
  match bound with
  | none => true
  | some m => decide (n ≤ m)

/-- `n` equals the capacity `bound`: the pseudocode's `BITLEN = BITS_MAX`, `T[j].cnt = CNT_MAX`, `len(T) = K_MAX` (R77,
R86). -/
def atBound (bound : Option Nat) (n : Nat) : Bool :=
  match bound with
  | none => false
  | some m => decide (n = m)

/-! ## Updates of the state, one for each piece of it -/

def State.withFt (s : State) (ft : List Entry) : State := { s with ft := ft }
def State.withTree (s : State) (t : CodeTree) : State := { s with tree := t }
def State.withBitbuf (s : State) (bits : List Bit) : State := { s with bitbuf := bits }
/-- `STATUS` and `ERRINFO` are always written together (R27, R137). -/
def State.withStatus (s : State) (st : Status) (info : Nat) : State := { s with status := st, errinfo := info }
def State.withPending (s : State) (es : List HostEvent) : State := { s with pending := es }
/-- Gives the host one response (R59). -/
def State.respond (s : State) (r : Response) : State := { s with responses := s.responses ++ [r] }

/-! ## The index spaces of the tree (R28) -/

/-- The frequency field of a node (R25). -/
def Node.freq : Node → Nat
  | .leaf _ f => f
  | .internal _ _ f => f

/-- `NODE[h] = Leaf(_, _)`. -/
def Node.isLeaf : Node → Bool
  | .leaf _ _ => true
  | .internal _ _ _ => false

/-- `freq(h)`, the frequency field of `NODE[h]` (R16); 0 for a handle of no node, which no rule asks for (log entry 14). -/
def freqAt (nodes : List Node) (h : Handle) : Nat :=
  match nodes[h]? with
  | some n => n.freq
  | none => 0

/-- The child of the position `cur` in the direction `b` (0 = left, 1 = right, R67): none at `NONE`, at a leaf (R102, R117), and
at a handle of no node (log entry 14). -/
def CodeTree.child (t : CodeTree) (cur : Option Handle) (b : Bit) : Option Handle :=
  match cur with
  | none => none
  | some h =>
    match t.node[h]? with
    | some (.internal l r _) => some (if b then r else l)
    | _ => none

/-- The symbol of the leaf at `h`, if `NODE[h]` is a leaf. -/
def CodeTree.leafSymbol (t : CodeTree) (h : Handle) : Option Symbol :=
  match t.node[h]? with
  | some (.leaf s _) => some s
  | _ => none

/-! ## Ending a command -/

/-- The destination of a command (R61, column "destination"): the state it writes, and what its fault clears. -/
inductive Dest where
  | none
  | bitbuf
  | ft
  | tree
  | allState
deriving DecidableEq, Repr

/-- Sets the destination to its reset value (R134 item 1; R32 for all state). -/
def State.clear (d : Dest) (s : State) : State :=
  match d with
  | .none => s
  | .bitbuf => s.withBitbuf []
  | .ft => s.withFt []
  | .tree => s.withTree CodeTree.empty
  | .allState => (((s.withFt []).withTree CodeTree.empty).withBitbuf []).withStatus .ok 0

/-- `return OK(value, payload)` (R16): `STATUS <- 0`, `ERRINFO <- 0` (R137) and the response (R59). -/
def State.complete (s : State) (val : Nat) (q : List Elem) : State :=
  (s.withStatus .ok 0).respond ⟨.ok, 0, val, q⟩

/-- `raise Kind(info)` (R16): the effect of a fault, this block's "trap entry" (R134). The destination takes its reset value,
`STATUS` and `ERRINFO` take the code and the `INFO`, the response carries neither `VAL` nor `Q`, and everything else stays. Nothing
is saved and there is no return from it (R138). -/
def State.raise (s : State) (d : Dest) (kind : Status) (info : Nat) : State :=
  ((s.clear d).withStatus kind info).respond ⟨kind, info, 0, []⟩

/-- What a command's pseudocode hands to `raise`: the kind and its `INFO` (R16, R135). -/
structure Trap where
  kind : Status
  info : Nat
deriving DecidableEq, Repr

/-- The reset event (R146): all state at its reset value, no response. The inputs waiting and the responses already given are
the host's (log entry 13). -/
def State.resetEvent (s : State) : State := s.clear .allState

/-- An illegal header (R63, R132): status IllegalCommand, `INFO = HDR`, "changes nothing but `STATUS` and `ERRINFO`". -/
def State.illegalCommand (s : State) (hdr : HeaderWord) : State := s.raise .none .illegalCommand hdr.toNat

end Sys2Proof.Machine
end

