-- ==== Sys2Proof/Machine/Operands.lean ====
section
/-! DEFINITION. The operand and result forms of spec 30_encoding.md R57, R58, R61, R69 and R70: the scalar `ARG` as a symbol and as
a node handle, the payload results, and each command's destination. -/

namespace Sys2Proof.Machine

open Sys2Proof

/-- The symbol `ARG` names, none when it is not below `2^SYM_W` (R57, R133). -/
def symbolOfArg (p : Params) (arg : Nat) : Option Symbol := if arg < 2 ^ p.symW then some arg else none

/-- The node `ARG` is the handle of, none when it is not below `NODECNT` (R26, R133). -/
def nodeOfArg (t : CodeTree) (arg : Nat) : Option Node := t.node[arg]?

/-- A Boolean result as `VAL`: 1 for true, 0 for false (R70). -/
def boolVal (b : Bool) : Nat := if b then 1 else 0

/-- A payload result of bytes (BB_PACK). -/
def byteElems (bytes : List Byte) : List Elem := bytes.map .byte
/-- A payload result of bits (HT_GETCODE). -/
def bitElems (bits : List Bit) : List Elem := bits.map .bit
/-- A payload result of symbols (CD_DECODE). -/
def symElems (syms : List Symbol) : List Elem := syms.map .sym
/-- A payload result of table entries, in the table's order (FT_READ, R69). -/
def entryElems (entries : List Entry) : List Elem := entries.map .entry

/-- The results of HT_NODE for a node: "`[sym]` for a leaf, `[left, right]` for an internal node" (R61, R104). -/
def nodeElems : Node → List Elem
  | .leaf s _ => [.sym s]
  | .internal l r _ => [.handle l, .handle r]

/-- The column "destination" of R61. -/
def destOf : Instr → Dest
  | .sysReset => .allState
  | .sysRdsr _ => .none
  | .bbClear => .bitbuf
  | .bbAppend _ => .bitbuf
  | .bbLen => .none
  | .bbPack => .none
  | .bbUnpack _ _ => .bitbuf
  | .ftCount _ => .ft
  | .ftLoad _ => .ft
  | .ftRead => .none
  | .htBuild => .tree
  | .htGetcode _ => .none
  | .htDescend _ _ => .none
  | .htIsleaf _ => .none
  | .htNode _ => .none
  | .cdEncode _ => .bitbuf
  | .cdDecode => .none

end Sys2Proof.Machine
end

