-- ==== Sys2Proof/Machine/BitBuffer.lean ====
section
/-! DEFINITION. The BitBuffer commands (spec 40_bitbuffer.md) and the packing of bits into bytes (20_memory.md R41 to R43). -/

namespace Sys2Proof.Machine

open Sys2Proof

/-- `ceil8(n) = (n + 7) div 8` (R13). -/
def ceil8 (n : Nat) : Nat := (n + 7) / 8

/-- Bit `i` of the buffer as a number, 0 beyond its length: the padding (R43). -/
def bitValue (bits : List Bit) (i : Nat) : Nat := ((bits[i]?).getD false).toNat

/-- Byte `j` of the packed form: the sum over `t` in 0..7 with `8j+t < n` of `BITBUF[8j+t] * 2^t` (R41). -/
def packedByte (bits : List Bit) (j : Nat) : Byte :=
  BitVec.ofNat 8 (((List.range 8).map fun t => bitValue bits (8 * j + t) * 2 ^ t).sum)

/-- The packed bytes of a buffer: `ceil8(n)` bytes in ascending order (R42, R79). -/
def packBits (bits : List Bit) : List Byte := (List.range (ceil8 bits.length)).map (packedByte bits)

/-- Bit `i` of a packed sequence, `(P[i div 8])[i mod 8]` (R80). -/
def unpackedBit (bytes : List Byte) (i : Nat) : Bit := ((bytes[i / 8]?).getD 0).getLsbD (i % 8)

/-- The first `n` bits of a packed sequence; padding bits and further bytes are not looked at (R43, R80). -/
def unpackBits (n : Nat) (bytes : List Byte) : List Bit := (List.range n).map (unpackedBit bytes)

/-- BB_CLEAR (R76). -/
def execBbClear (s : State) : Result := .next ((s.withBitbuf []).complete 0 [])

/-- BB_APPEND (R77). -/
def execBbAppend (b : Bit) (s : State) : Result :=
  if atBound s.params.bitsMax s.bitbuf.length then
    .next (s.raise .bitbuf .capacityExceeded s.bitbuf.length)
  else
    .next ((s.withBitbuf (s.bitbuf ++ [b])).complete 0 [])

/-- BB_LEN (R78). -/
def execBbLen (s : State) : Result := .next (s.complete s.bitbuf.length [])

/-- BB_PACK (R79): `BITBUF` is not consumed. -/
def execBbPack (s : State) : Result := .next (s.complete 0 (byteElems (packBits s.bitbuf)))

/-- BB_UNPACK (R80): too few bytes is tested before too many bits (R136). -/
def execBbUnpack (n : Nat) (bytes : List Byte) (s : State) : Result :=
  if bytes.length < ceil8 n then
    .next (s.raise .bitbuf .illegalOperand bytes.length)
  else if fits s.params.bitsMax n then
    .next ((s.withBitbuf (unpackBits n bytes)).complete 0 [])
  else
    .next (s.raise .bitbuf .capacityExceeded n)

end Sys2Proof.Machine
end

