-- ==== Sys2Proof/Machine/HuffTree.lean ====
section
/-! DEFINITION. The HuffmanTree commands (spec 42_hufftree.md): HT_BUILD, HT_GETCODE, HT_DESCEND, HT_ISLEAF, HT_NODE. -/

namespace Sys2Proof.Machine

open Sys2Proof

/-- Step 1: one leaf per table entry, in the table's order, so the leaf of entry `j` has handle `j` (R94). -/
def leavesOf (ft : List Entry) : List Node := ft.map fun e => .leaf e.sym e.cnt

/-- `stable_sort_ascending_by_freq(W)` (R95): an insertion sort, which keeps the order of elements of equal frequency. Only
frequencies are compared. -/
def sortByFreq (nodes : List Node) (w : List Handle) : List Handle :=
  w.insertionSort fun a b => freqAt nodes a ≤ freqAt nodes b

/-- Steps 2 to 4 (R95, R96): HT_BUILD's loop over the nodes made so far and the working list. Each iteration shortens the list
by one, so as many iterations as it has elements are enough; the loop ends when one node remains. -/
def mergeLoop (cntMax : Option Nat) : Nat → List Node → List Handle → Except Trap CodeTree
  | 0, nodes, w => .ok ⟨nodes, w.head?⟩
  | k + 1, nodes, w =>
    match sortByFreq nodes w with
    | a :: b :: rest =>
      if fits cntMax (freqAt nodes a + freqAt nodes b) then
        mergeLoop cntMax k (nodes ++ [.internal a b (freqAt nodes a + freqAt nodes b)]) (rest ++ [nodes.length])
      else .error ⟨.capacityExceeded, nodes.length⟩
    | _ => .ok ⟨nodes, w.head?⟩

/-- HT_BUILD's function of the table: the empty tree for no entry (R98), DegenerateAlphabet for one (R99), else the merges
(R93). -/
def buildTree (cntMax : Option Nat) (ft : List Entry) : Except Trap CodeTree :=
  match ft with
  | [] => .ok CodeTree.empty
  | [_] => .error ⟨.degenerateAlphabet, 0⟩
  | _ :: _ :: _ => mergeLoop cntMax ft.length (leavesOf ft) (List.range ft.length)

/-- `find(h, s, path)` of R101, left first. The first argument bounds the depth of the search: `NODECNT` is enough, since "the
lookup visits each node at most once" (R9) on every tree HT_BUILD makes. DEDUCED, log entry 8. -/
def findCode (nodes : List Node) (s : Symbol) : Nat → Handle → List Bit → Option (List Bit)
  | 0, _, _ => none
  | depth + 1, h, path =>
    match nodes[h]? with
    | some (.leaf t _) => if t = s then some path else none
    | some (.internal l r _) =>
      match findCode nodes s depth l (path ++ [false]) with
      | some c => some c
      | none => findCode nodes s depth r (path ++ [true])
    | none => none

/-- `code_of(s)` (R101): the path from the root to the leaf of `s`, none when no leaf holds it. -/
def codeOf (t : CodeTree) (s : Symbol) : Option (List Bit) :=
  match t.root with
  | none => none
  | some h => findCode t.node s t.node.length h []

/-- HT_BUILD (R93): `FT` and `BITBUF` are untouched; a fault leaves the empty tree. -/
def execHtBuild (s : State) : Result :=
  match buildTree s.params.cntMax s.ft with
  | .ok t => .next ((s.withTree t).complete 0 [])
  | .error trap => .next (s.raise .tree trap.kind trap.info)

/-- HT_GETCODE (R101). -/
def execHtGetcode (arg : Nat) (s : State) : Result :=
  match symbolOfArg s.params arg with
  | none => .next (s.raise .none .illegalOperand arg)
  | some sym =>
    match codeOf s.tree sym with
    | none => .next (s.raise .none .unknownSymbol arg)
    | some c => .next (s.complete 0 (bitElems c))

/-- HT_DESCEND (R102). -/
def execHtDescend (h : Nat) (b : Bit) (s : State) : Result :=
  match nodeOfArg s.tree h with
  | none => .next (s.raise .none .illegalOperand h)
  | some (.leaf _ _) => .next (s.raise .none .structuralViolation h)
  | some (.internal l r _) => .next (s.complete (if b then r else l) [])

/-- HT_ISLEAF (R103). -/
def execHtIsleaf (h : Nat) (s : State) : Result :=
  match nodeOfArg s.tree h with
  | none => .next (s.raise .none .illegalOperand h)
  | some n => .next (s.complete (boolVal n.isLeaf) [])

/-- HT_NODE (R104). -/
def execHtNode (h : Nat) (s : State) : Result :=
  match nodeOfArg s.tree h with
  | none => .next (s.raise .none .illegalOperand h)
  | some n => .next (s.complete n.freq (nodeElems n))

end Sys2Proof.Machine
end

