-- ==== Sys2Proof/Machine/Codec.lean ====
section
/-! DEFINITION. The Codec commands (spec 43_codec.md): CD_ENCODE, CD_DECODE. -/

namespace Sys2Proof.Machine

open Sys2Proof

/-- CD_ENCODE's loop from index `i` with the output so far (R111). -/
def encodeLoop (bitsMax : Option Nat) (t : CodeTree) : List Symbol → Nat → List Bit → Except Trap (List Bit)
  | [], _, out => .ok out
  | s :: rest, i, out =>
    match codeOf t s with
    | none => .error ⟨.unknownSymbol, i⟩
    | some c =>
      if fits bitsMax (out.length + c.length) then encodeLoop bitsMax t rest (i + 1) (out ++ c)
      else .error ⟨.capacityExceeded, i⟩

/-- CD_DECODE's loop over the bits that remain: `i` is the index of the next one, `cur` the current node, `out` the symbols so
far, `start` the index of the first bit of the code being read (R117). The leaf test follows each descent. -/
def decodeLoop (t : CodeTree) : List Bit → Nat → Option Handle → List Symbol → Nat → Except Trap (List Symbol)
  | [], i, _, out, start => if start = i then .ok out else .error ⟨.truncated, start⟩
  | b :: rest, i, cur, out, start =>
    match t.child cur b with
    | none => .error ⟨.structuralViolation, i⟩
    | some h =>
      match t.leafSymbol h with
      | some s => decodeLoop t rest (i + 1) t.root (out ++ [s]) (i + 1)
      | none => decodeLoop t rest (i + 1) (some h) out start

/-- The symbols a bit sequence decodes to against a tree, from the root (R117). -/
def decodeBits (t : CodeTree) (bits : List Bit) : Except Trap (List Symbol) := decodeLoop t bits 0 t.root [] 0

/-- CD_ENCODE (R111): the output starts empty and replaces `BITBUF`. -/
def execCdEncode (syms : List Symbol) (s : State) : Result :=
  match encodeLoop s.params.bitsMax s.tree syms 0 [] with
  | .ok out => .next ((s.withBitbuf out).complete 0 [])
  | .error trap => .next (s.raise .bitbuf trap.kind trap.info)

/-- CD_DECODE (R117): `BITBUF` is not consumed, and a failed decode emits no symbol. -/
def execCdDecode (s : State) : Result :=
  match decodeBits s.tree s.bitbuf with
  | .ok out => .next (s.complete 0 (symElems out))
  | .error trap => .next (s.raise .none trap.kind trap.info)

end Sys2Proof.Machine
end

