-- ==== Sys2Proof/Machine/FreqTable.lean ====
section
/-! DEFINITION. The FrequencyTable commands (spec 41_freqtable.md): FT_COUNT, FT_LOAD, FT_READ. -/

namespace Sys2Proof.Machine

open Sys2Proof

/-- The entry of `s` in a table, if there is one: "there is j with T[j].sym = s" (R86). -/
def findEntry (t : List Entry) (s : Symbol) : Option Entry := t.find? (fun e => e.sym == s)

/-- `T[j].cnt <- T[j].cnt + 1` for the entry of `s` (R86). -/
def incrementEntry (t : List Entry) (s : Symbol) : List Entry :=
  t.map fun e => if e.sym = s then { e with cnt := e.cnt + 1 } else e

/-- One iteration of FT_COUNT's loop for the symbol `s`; none where it raises CapacityExceeded: "when a new symbol would be entry
`K_MAX + 1` or a count would pass `CNT_MAX`" (R86, R131). A new symbol's count is 1, which passes `CNT_MAX = 0`: log entry 9. -/
def countSymbol (p : Params) (t : List Entry) (s : Symbol) : Option (List Entry) :=
  match findEntry t s with
  | some e => if atBound p.cntMax e.cnt then none else some (incrementEntry t s)
  | none =>
    if atBound p.kMax t.length then none
    else if fits p.cntMax 1 then some (t ++ [⟨s, 1⟩])
    else none

/-- FT_COUNT's loop from index `i` with the table `t` counted so far (R86). -/
def countLoop (p : Params) : List Symbol → Nat → List Entry → Except Trap (List Entry)
  | [], _, t => .ok t
  | s :: rest, i, t =>
    match countSymbol p t s with
    | some t' => countLoop p rest (i + 1) t'
    | none => .error ⟨.capacityExceeded, i⟩

/-- The table FT_COUNT builds from the empty one; the old table takes no part (R86). -/
def countTable (p : Params) (syms : List Symbol) : Except Trap (List Entry) := countLoop p syms 0 []

/-- FT_LOAD's tests of entry `j`, in the order of R87, with the symbols already entered. -/
def loadFault (p : Params) (seen : List Symbol) (j : Nat) (e : Entry) : Option Trap :=
  if e.cnt = 0 then some ⟨.illegalOperand, j⟩
  else if seen.contains e.sym then some ⟨.illegalOperand, j⟩
  else if fits p.kMax (j + 1) && fits p.cntMax e.cnt then none
  else some ⟨.capacityExceeded, j⟩

/-- FT_LOAD's loop: the first trap, if any entry gives one (R87). -/
def loadLoop (p : Params) : List Entry → Nat → List Symbol → Option Trap
  | [], _, _ => none
  | e :: rest, j, seen =>
    match loadFault p seen j e with
    | some trap => some trap
    | none => loadLoop p rest (j + 1) (seen ++ [e.sym])

/-- FT_COUNT (R86). -/
def execFtCount (syms : List Symbol) (s : State) : Result :=
  match countTable s.params syms with
  | .ok t => .next ((s.withFt t).complete 0 [])
  | .error trap => .next (s.raise .ft trap.kind trap.info)

/-- FT_LOAD (R87). -/
def execFtLoad (entries : List Entry) (s : State) : Result :=
  match loadLoop s.params entries 0 [] with
  | none => .next ((s.withFt entries).complete 0 [])
  | some trap => .next (s.raise .ft trap.kind trap.info)

/-- FT_READ (R88). -/
def execFtRead (s : State) : Result := .next (s.complete 0 (entryElems s.ft))

end Sys2Proof.Machine
end

