-- ==== Sys2Proof/Machine/Flags.lean ====
section
/-! DEFINITION. The status code numbers (spec 60_exceptions.md R125) and the status registers (10_state.md R27). HUFFCORE has no
other flag: "There are no carry, zero, sign or overflow flags and no predicates" (R22). -/

namespace Sys2Proof.Machine

open Sys2Proof

/-- The number of a status code (R125), the field 7:0 of `STATUS`; the bits above read 0 (R27). -/
def Status.code : Status → Nat
  | .ok => 0
  | .unknownSymbol => 1
  | .truncated => 2
  | .structuralViolation => 3
  | .degenerateAlphabet => 4
  | .capacityExceeded => 5
  | .illegalCommand => 6
  | .illegalOperand => 7

/-- Status register `ROOT`: "the root handle, or `NODECNT` (= 0) when the tree is empty" (R27). -/
def rootRegister (t : CodeTree) : Nat :=
  match t.root with
  | some h => h
  | none => t.node.length

/-- `SR[index]` (R27): `STATUS`, `ERRINFO`, and the views `BITLEN`, `FTLEN`, `NODECNT`, `ROOT`; none above index 5. -/
def State.readStatusRegister (s : State) : Nat → Option Nat
  | 0 => some s.status.code
  | 1 => some s.errinfo
  | 2 => some s.bitbuf.length
  | 3 => some s.ft.length
  | 4 => some s.tree.node.length
  | 5 => some (rootRegister s.tree)
  | _ => none

end Sys2Proof.Machine
end

