-- ==== Sys2Proof/Machine/System.lean ====
section
/-! DEFINITION. The system commands (spec 44_system.md): SYS_RESET, SYS_RDSR. -/

namespace Sys2Proof.Machine

open Sys2Proof

/-- SYS_RESET (R121): every piece of state to its reset value, and a response. -/
def execSysReset (s : State) : Result := .next ((s.clear .allState).complete 0 [])

/-- SYS_RDSR (R122): the register's value, or IllegalOperand above index 5. It writes neither `STATUS` nor `ERRINFO` in either
case; its own status is in its response only (R137). -/
def execSysRdsr (index : Nat) (s : State) : Result :=
  match s.readStatusRegister index with
  | some v => .next (s.respond ⟨.ok, 0, v, []⟩)
  | none => .next (s.respond ⟨.illegalOperand, index, 0, []⟩)

end Sys2Proof.Machine
end

