-- ==== Sys2Proof/Machine/Dispatch.lean ====
section
/-! DEFINITION. exec: one arm per command, each one direct call of its meaning. -/

namespace Sys2Proof.Machine

open Sys2Proof

def exec (i : Instr) (s : State) : Host.Outcome State Fault Refusal :=
  match i with
  | .sysReset => Sys2Proof.Machine.execSysReset s
  | .sysRdsr index => Sys2Proof.Machine.execSysRdsr index s
  | .bbClear => Sys2Proof.Machine.execBbClear s
  | .bbAppend b => Sys2Proof.Machine.execBbAppend b s
  | .bbLen => Sys2Proof.Machine.execBbLen s
  | .bbPack => Sys2Proof.Machine.execBbPack s
  | .bbUnpack n bytes => Sys2Proof.Machine.execBbUnpack n bytes s
  | .ftCount syms => Sys2Proof.Machine.execFtCount syms s
  | .ftLoad entries => Sys2Proof.Machine.execFtLoad entries s
  | .ftRead => Sys2Proof.Machine.execFtRead s
  | .htBuild => Sys2Proof.Machine.execHtBuild s
  | .htGetcode arg => Sys2Proof.Machine.execHtGetcode arg s
  | .htDescend h b => Sys2Proof.Machine.execHtDescend h b s
  | .htIsleaf h => Sys2Proof.Machine.execHtIsleaf h s
  | .htNode h => Sys2Proof.Machine.execHtNode h s
  | .cdEncode syms => Sys2Proof.Machine.execCdEncode syms s
  | .cdDecode => Sys2Proof.Machine.execCdDecode s

end Sys2Proof.Machine
end

