-- ==== Sys2Proof/WellFormed.lean ====
section
/-! DEFINITION. Which decoded commands can be written down: spec 30_encoding.md R58, "a symbol is one of the `2^SYM_W`
symbols, a byte is 0 to 255, a count is a natural number; an ill-typed element cannot be written down and no rule checks for
one". Bytes and counts are typed by construction; the symbols of a payload are checked here, against `SYM_W`. The scalar
operand `ARG` is any natural number: the commands themselves check it (R133). -/

namespace Sys2Proof

/-- `s` is one of the `2^SYM_W` symbols (R57, R58). -/
def symbolOk (p : Params) (s : Symbol) : Bool := decide (s < 2 ^ p.symW)

/-- Every payload symbol of the command is one of the `2^SYM_W` symbols (R58). -/
def Instr.wf (p : Params) : Instr → Bool
  | .sysReset => true
  | .sysRdsr _ => true
  | .bbClear => true
  | .bbAppend _ => true
  | .bbLen => true
  | .bbPack => true
  | .bbUnpack _ _ => true
  | .ftCount syms => syms.all (symbolOk p)
  | .ftLoad entries => entries.all fun e => symbolOk p e.sym
  | .ftRead => true
  | .htBuild => true
  | .htGetcode _ => true
  | .htDescend _ _ => true
  | .htIsleaf _ => true
  | .htNode _ => true
  | .cdEncode syms => syms.all (symbolOk p)
  | .cdDecode => true

end Sys2Proof
end

