-- ==== Sys2Proof/Machine/Issue.lean ====
section
/-! DEFINITION. Taking one command from the host (spec 30_encoding.md R56 to R59, R63; 60_exceptions.md R136): the header is
checked first, then the payload's types, then the command runs. -/

namespace Sys2Proof.Machine

open Sys2Proof

/-- One whole command, from its issue to its response (R8). An ill-typed payload is refused: R58 says it "cannot be written
down" (log entry 6). -/
def issueCommand (c : Command) (s : State) : Result :=
  match decode c with
  | .ok i => if i.wf s.params then exec i s else .refused .illTypedPayload
  | .error (.illegalHeader _) => .next (s.illegalCommand c.hdr)
  | .error .illTypedPayload => .refused .illTypedPayload

/-- One input of the host, taken from `pending`. -/
def takeEvent (e : HostEvent) (s : State) : Result :=
  match e with
  | .command c => issueCommand c s
  | .reset => .next s.resetEvent
  | .resetDuring _ => .next s.resetEvent

end Sys2Proof.Machine
end

