-- ==== Sys2Proof/Machine/Step.lean ====
section
/-! DEFINITION. One step of the machine: the next input of the host, taken whole (spec 00_scope.md R8; 20_memory.md R50). -/

namespace Sys2Proof.Machine

open Sys2Proof

/-- The first input waiting is taken from `pending` and carried out. With none waiting the block is idle: "between commands the
block is idle and holds its state; nothing but a command or reset changes it" (R145; log entry 4). -/
def step (s : State) : Host.Outcome State Fault Refusal :=
  match s.pending with
  | [] => .next s
  | e :: rest => takeEvent e (s.withPending rest)

/-- `s` with the command of the header bits `w` (operand 0, empty payload) offered next, before the inputs already waiting. It
stands for the host's issue of that command: HUFFCORE fetches nothing (R21; log entries 2 and 16). -/
def State.withFetchWord (s : State) (nbits w : Nat) : State :=
  s.withPending (.command (tableCommand nbits w) :: s.pending)

end Sys2Proof.Machine
end

