-- ==== Sys2Proof/Machine/Allowed.lean ====
section
/-! DEFINITION. What the spec lets an implementation do inside HT_BUILD, HT_GETCODE and CD_ENCODE (93_implementation_defined.md
U12): the selection without sorting (42_hufftree.md R97) and the symbol-to-code cache (10_state.md R30, 20_memory.md R54). No step
uses them; the claims say that they give what the machine gives. Log entry 18. -/

namespace Sys2Proof.Machine

open Sys2Proof

/-- R97's order: "lower frequency first; among equal frequencies, lower handle first". -/
def before (nodes : List Node) (a b : Handle) : Prop :=
  freqAt nodes a < freqAt nodes b ∨ (freqAt nodes a = freqAt nodes b ∧ a < b)

/-- The first handle of a working list under R97's order. -/
def leastOf (nodes : List Node) : List Handle → Option Handle
  | [] => none
  | h :: w =>
    match leastOf nodes w with
    | none => some h
    | some m =>
      if freqAt nodes m < freqAt nodes h ∨ (freqAt nodes m = freqAt nodes h ∧ m < h) then some m else some h

/-- The builder's loop with the two smallest taken from the working list and no sort (R97). -/
def priorityLoop (cntMax : Option Nat) : Nat → List Node → List Handle → Except Trap CodeTree
  | 0, nodes, w => .ok ⟨nodes, w.head?⟩
  | k + 1, nodes, w =>
    match leastOf nodes w with
    | none => .ok ⟨nodes, none⟩
    | some a =>
      match leastOf nodes (w.erase a) with
      | none => .ok ⟨nodes, w.head?⟩
      | some b =>
        if fits cntMax (freqAt nodes a + freqAt nodes b) then
          priorityLoop cntMax k (nodes ++ [.internal a b (freqAt nodes a + freqAt nodes b)])
            ((w.erase a).erase b ++ [nodes.length])
        else .error ⟨.capacityExceeded, nodes.length⟩

/-- HT_BUILD's function with the selection of R97. -/
def buildByPriority (cntMax : Option Nat) (ft : List Entry) : Except Trap CodeTree :=
  match ft with
  | [] => .ok CodeTree.empty
  | [_] => .error ⟨.degenerateAlphabet, 0⟩
  | _ :: _ :: _ => priorityLoop cntMax ft.length (leavesOf ft) (List.range ft.length)

/-- "one full tree traversal" (R30): every leaf below `h` with its path, left first. -/
def collectCodes (nodes : List Node) : Nat → Handle → List Bit → List (Symbol × List Bit)
  | 0, _, _ => []
  | depth + 1, h, path =>
    match nodes[h]? with
    | some (.leaf s _) => [(s, path)]
    | some (.internal l r _) =>
      collectCodes nodes depth l (path ++ [false]) ++ collectCodes nodes depth r (path ++ [true])
    | none => []

/-- The symbol-to-code cache, filled once from a tree (R30). -/
def codeCache (t : CodeTree) : List (Symbol × List Bit) :=
  match t.root with
  | none => []
  | some h => collectCodes t.node t.node.length h []

/-- A lookup in the cache. -/
def cachedCode (t : CodeTree) (s : Symbol) : Option (List Bit) :=
  ((codeCache t).find? (fun e => e.1 == s)).map (·.2)

end Sys2Proof.Machine
end

