-- ==== Sys2Proof/Machine/Instances.lean ====
section
/-! DEFINITION. Several instances (spec 60_exceptions.md R144): "Any number of HUFFCORE instances may run side by side; they
share no state and need no coordination." Log entry 17. -/

namespace Sys2Proof.Machine

open Sys2Proof

/-- Instances side by side, each with a state of its own. -/
abbrev Instances := List State

/-- One step of instance `k`; a number of no instance steps nothing. -/
def stepInstance (k : Nat) (sys : Instances) : Host.Outcome Instances Fault Refusal :=
  match sys[k]? with
  | none => .next sys
  | some s =>
    match step s with
    | .next t => .next (sys.set k t)
    | .fault r => .fault r
    | .refused r => .refused r

end Sys2Proof.Machine
end

