-- ==== Sys2Proof/Machine/Pseudo.lean ====
section
/-! DEFINITION. The assembler lines of spec 30_encoding.md R65 as abstract syntax, and the pseudo-instructions of R66: names for
fixed command sequences that the host issues. -/

namespace Sys2Proof.Machine

open Sys2Proof

/-- The status register names of R27, which "may stand for their indices" (R65). -/
inductive StatusRegister where
  | STATUS | ERRINFO | BITLEN | FTLEN | NODECNT | ROOT
deriving DecidableEq, Repr

/-- The index of a status register (R27). -/
def StatusRegister.index : StatusRegister → Nat
  | .STATUS => 0
  | .ERRINFO => 1
  | .BITLEN => 2
  | .FTLEN => 3
  | .NODECNT => 4
  | .ROOT => 5

/-- An operand of an assembler line (R65): a number, a status register name, or a payload in square brackets. -/
inductive AsmOperand where
  | num (n : Nat)
  | reg (r : StatusRegister)
  | payload (p : List Elem)
deriving DecidableEq, Repr

/-- An assembler line (R65): a mnemonic followed by its operands. The commas, brackets and spelling of numbers are notation; log
entry 20. -/
structure AsmLine where
  op : Opcode
  operands : List AsmOperand
deriving DecidableEq, Repr

/-- The number an operand stands for (R65). -/
def AsmOperand.value : AsmOperand → Option Nat
  | .num n => some n
  | .reg r => some r.index
  | .payload _ => none

/-- A `B` operand: the number 0 or 1 (R61, R65). -/
def AsmOperand.bit : AsmOperand → Option Bit
  | .num 0 => some false
  | .num 1 => some true
  | _ => none

/-- The encoding of a written command (R65): the operands "in the order `B` or `ARG`, then `P`", and `ARG, B` for HT_DESCEND. -/
def AsmLine.assemble (l : AsmLine) : Option Command :=
  match l.op, l.operands with
  | .BB_APPEND, [o] => o.bit.map fun b => ⟨headerWord .BB_APPEND b, 0, []⟩
  | .SYS_RDSR, [o] => o.value.map fun n => ⟨headerWord .SYS_RDSR false, n, []⟩
  | .HT_DESCEND, [h, o] =>
    match h, o.bit with
    | .num n, some b => some ⟨headerWord .HT_DESCEND b, n, []⟩
    | _, _ => none
  | .HT_GETCODE, [.num n] => some ⟨headerWord .HT_GETCODE false, n, []⟩
  | .HT_ISLEAF, [.num n] => some ⟨headerWord .HT_ISLEAF false, n, []⟩
  | .HT_NODE, [.num n] => some ⟨headerWord .HT_NODE false, n, []⟩
  | .BB_UNPACK, [.num n, .payload p] => some ⟨headerWord .BB_UNPACK false, n, p⟩
  | .FT_COUNT, [.payload p] => some ⟨headerWord .FT_COUNT false, 0, p⟩
  | .FT_LOAD, [.payload p] => some ⟨headerWord .FT_LOAD false, 0, p⟩
  | .CD_ENCODE, [.payload p] => some ⟨headerWord .CD_ENCODE false, 0, p⟩
  | .SYS_RESET, [] => some ⟨headerWord .SYS_RESET false, 0, []⟩
  | .BB_CLEAR, [] => some ⟨headerWord .BB_CLEAR false, 0, []⟩
  | .BB_LEN, [] => some ⟨headerWord .BB_LEN false, 0, []⟩
  | .BB_PACK, [] => some ⟨headerWord .BB_PACK false, 0, []⟩
  | .FT_READ, [] => some ⟨headerWord .FT_READ false, 0, []⟩
  | .HT_BUILD, [] => some ⟨headerWord .HT_BUILD false, 0, []⟩
  | .CD_DECODE, [] => some ⟨headerWord .CD_DECODE false, 0, []⟩
  | _, _ => none

/-- The assembler line of an instruction (R65), with numbers for its scalar operands. -/
def asmLine : Instr → AsmLine
  | .sysReset => ⟨.SYS_RESET, []⟩
  | .sysRdsr index => ⟨.SYS_RDSR, [.num index]⟩
  | .bbClear => ⟨.BB_CLEAR, []⟩
  | .bbAppend b => ⟨.BB_APPEND, [.num b.toNat]⟩
  | .bbLen => ⟨.BB_LEN, []⟩
  | .bbPack => ⟨.BB_PACK, []⟩
  | .bbUnpack n bytes => ⟨.BB_UNPACK, [.num n, .payload (bytes.map .byte)]⟩
  | .ftCount syms => ⟨.FT_COUNT, [.payload (syms.map .sym)]⟩
  | .ftLoad entries => ⟨.FT_LOAD, [.payload (entries.map .entry)]⟩
  | .ftRead => ⟨.FT_READ, []⟩
  | .htBuild => ⟨.HT_BUILD, []⟩
  | .htGetcode arg => ⟨.HT_GETCODE, [.num arg]⟩
  | .htDescend h b => ⟨.HT_DESCEND, [.num h, .num b.toNat]⟩
  | .htIsleaf h => ⟨.HT_ISLEAF, [.num h]⟩
  | .htNode h => ⟨.HT_NODE, [.num h]⟩
  | .cdEncode syms => ⟨.CD_ENCODE, [.payload (syms.map .sym)]⟩
  | .cdDecode => ⟨.CD_DECODE, []⟩

/-- The pseudo-instructions of R66. -/
inductive Pseudo where
  | htRoot
  | compress (syms : List Symbol)
  | expand (table : List Entry) (n : Nat) (bytes : List Byte)
deriving DecidableEq, Repr

/-- The column "expansion" of R66. -/
def Pseudo.expansion : Pseudo → List Instr
  | .htRoot => [.sysRdsr StatusRegister.ROOT.index]
  | .compress syms => [.ftCount syms, .htBuild, .cdEncode syms, .bbPack, .bbLen]
  | .expand table n bytes => [.ftLoad table, .htBuild, .bbUnpack n bytes, .cdDecode]

/-- The latest response's status. -/
def State.lastStatus (s : State) : Option Status := s.responses.getLast?.map (·.st)

/-- The commands of a sequence, one after another: "A sequence stops at the first response whose status is not OK, and that
response is the pseudo-instruction's" (R66). -/
def runSequence : List Instr → State → Result
  | [], s => .next s
  | i :: rest, s =>
    match exec i s with
    | .next t => if t.lastStatus = some .ok then runSequence rest t else .next t
    | .fault r => .fault r
    | .refused r => .refused r

/-- A pseudo-instruction (R66). -/
def runPseudo (p : Pseudo) (s : State) : Result := runSequence p.expansion s

end Sys2Proof.Machine
end

