-- ==== Sys2Proof/Safety.lean ====
section
/-! DEFINITION. The invariants the spec states of the state (10_state.md R24, R27, R29, R31), in the terms the claims use, and the
walk a code describes in a tree (00_scope.md R18, "Code"). -/

namespace Sys2Proof.Machine

open Sys2Proof

/-! ## The state after a command, written out for the claims -/

/-- `s` after a command that answered `r`: `STATUS` and `ERRINFO` hold the response's `ST` and `INFO` (R137), the host has one
response more (R59), everything else is as in `s`. -/
def State.afterResponse (s : State) (r : Response) : State :=
  { s with status := r.st, errinfo := r.info, responses := s.responses ++ [r] }

/-- `s` after a command that ended OK with these results (R59, R137). -/
def State.afterOk (s : State) (val : Nat) (q : List Elem) : State := s.afterResponse ⟨.ok, 0, val, q⟩

/-- `s` after a command that ended with a fault; the cleared destination is written into `s` by the claim (R134). -/
def State.afterFault (s : State) (kind : Status) (info : Nat) : State := s.afterResponse ⟨kind, info, 0, []⟩

/-- A command that can be written down: if its header selects a command, its payload is of that command's type (R58). -/
def Typed (p : Params) (c : Command) : Prop :=
  match decode c with
  | .ok i => i.wf p = true
  | .error (.illegalHeader _) => True
  | .error .illTypedPayload => False

/-- A header that R63 calls illegal: "any `OP` not in the table ..., any non-zero bit in `ZERO`, or `B = 1` in a command that has
no `B` operand". -/
def IllegalHeader (w : HeaderWord) : Prop :=
  opField w ∉ ([0x01, 0x02, 0x10, 0x11, 0x12, 0x13, 0x14, 0x20, 0x21, 0x22, 0x30, 0x31, 0x32, 0x33, 0x34, 0x40, 0x41] :
    List (BitVec 8)) ∨
  zeroField w ≠ 0 ∨
  (bField w = true ∧ opField w ≠ 0x11 ∧ opField w ≠ 0x32)

/-! ## Invariants -/

/-- R31: no two entries have equal `sym`; every `cnt >= 1`; `cnt <= CNT_MAX`; `FTLEN <= K_MAX`. -/
structure FtInv (p : Params) (ft : List Entry) : Prop where
  distinct : (ft.map (·.sym)).Nodup
  positive : ∀ e ∈ ft, 1 ≤ e.cnt
  countFits : ∀ e ∈ ft, fits p.cntMax e.cnt = true
  lengthFits : fits p.kMax ft.length = true

/-- R24: `BITLEN <= BITS_MAX`. -/
abbrev BitInv (p : Params) (bits : List Bit) : Prop := fits p.bitsMax bits.length = true

/-- The symbols of the leaves, in handle order. -/
def CodeTree.symbols (t : CodeTree) : List Symbol := t.node.filterMap fun n => match n with
  | .leaf s _ => some s
  | .internal _ _ _ => none

/-- The frequencies of the leaves, in handle order. -/
def CodeTree.leafFreqs (t : CodeTree) : List Nat := t.node.filterMap fun n => match n with
  | .leaf _ f => some f
  | .internal _ _ _ => none

/-- Every handle that stands as `left` or `right` of an internal node, once for each place. -/
def CodeTree.childRefs (t : CodeTree) : List Handle := t.node.flatMap fun n => match n with
  | .leaf _ _ => []
  | .internal l r _ => [l, r]

/-- `NODE[h]` is a leaf. -/
def CodeTree.isLeafAt (t : CodeTree) (h : Handle) : Bool :=
  match t.node[h]? with
  | some n => n.isLeaf
  | none => false

/-- R29: for an internal node `h`, `left < h`, `right < h`, `left != right`, and `freq(h) = freq(left) + freq(right)`. -/
def CodeTree.internalOk (t : CodeTree) (h : Handle) : Bool :=
  match t.node[h]? with
  | some (.internal l r f) =>
    decide (l < h) && decide (r < h) && decide (l ≠ r) && decide (f = freqAt t.node l + freqAt t.node r)
  | _ => false

/-- R29, a tree that is not empty: the shape of a tree built from `k` entries (R100). -/
structure CodeTree.Built (cntMax : Option Nat) (t : CodeTree) (k : Nat) : Prop where
  twoEntries : 2 ≤ k
  count : t.node.length = 2 * k - 1
  rootLast : t.root = some (2 * k - 2)
  leaves : ∀ h < k, t.isLeafAt h = true
  distinct : t.symbols.Nodup
  internals : ∀ h < 2 * k - 1, k ≤ h → t.internalOk h = true
  oneParent : ∀ h < 2 * k - 2, t.childRefs.count h = 1
  rootNoParent : t.childRefs.count (2 * k - 2) = 0
  positive : ∀ n ∈ t.node, 1 ≤ n.freq
  freqFits : ∀ n ∈ t.node, fits cntMax n.freq = true
  rootSum : freqAt t.node (2 * k - 2) = t.leafFreqs.sum

/-- R29: either the empty tree, or a built one. -/
def TreeInv (cntMax : Option Nat) (t : CodeTree) : Prop := t = CodeTree.empty ∨ ∃ k, t.Built cntMax k

/-- R57, R58: every symbol the block holds is one of the `2^SYM_W` symbols. -/
def SymInv (s : State) : Prop :=
  (∀ e ∈ s.ft, symbolOk s.params e.sym = true) ∧ (∀ x ∈ s.tree.symbols, symbolOk s.params x = true)

/-- The invariants of a HUFFCORE state. -/
structure State.Inv (s : State) : Prop where
  ft : FtInv s.params s.ft
  bitbuf : BitInv s.params s.bitbuf
  tree : TreeInv s.params.cntMax s.tree
  symbols : SymInv s
  /-- R27: `ERRINFO` is 0 when the status was OK. -/
  errinfo : s.status = .ok → s.errinfo = 0

/-! ## Codes -/

/-- Where the walk from `h` along a bit sequence ends, one child per bit (R18, R67); none where a child is missing. -/
def CodeTree.walk (t : CodeTree) (h : Handle) : List Bit → Option Handle
  | [] => some h
  | b :: bits =>
    match t.child (some h) b with
    | some h' => t.walk h' bits
    | none => none

/-- `bits` leads from the root to the leaf of `s`: the code of R18, "the sequence of left/right choices from root to that
leaf". -/
def CodeTree.IsCode (t : CodeTree) (s : Symbol) (bits : List Bit) : Prop :=
  ∃ r h, t.root = some r ∧ t.walk r bits = some h ∧ t.leafSymbol h = some s

/-- The handles that stand in the builder's working list when the node `h` is made: those below `h` that are no child of an
internal node made before it (R96). -/
def CodeTree.candidateAt (t : CodeTree) (h c : Handle) : Prop :=
  c < h ∧ ∀ h' < h, ∀ l r f, t.node[h']? = some (.internal l r f) → c ≠ l ∧ c ≠ r

end Sys2Proof.Machine
end

