-- ==== Sys2Proof/Certificates/Slice0/Obligations.lean ====
section
/-! DEFINITION. The statements for the provers, from the numbered rules of spec/. In each, `State.afterOk`, `State.afterFault` and
`State.afterResponse` (Safety.lean) write out the whole state after a command, so the frame is part of the statement. -/

open Sys2Proof Sys2Proof.Machine

/-! ## Encoding -/

/-- R56, R61, R62, R65: every instruction, with every operand, is read back from its encoding; and a command that decodes to `i`
has the header of `i`'s encoding, and its operands where `i` uses them. -/
def Obligations.DecodeAndEncodeAgree : Prop :=
  (∀ i : Instr, decode (encode i) = .ok i) ∧
  ∀ (c : Command) (i : Instr), decode c = .ok i →
    (encode i).hdr = c.hdr ∧
    (i.opcode ∈ [.SYS_RDSR, .BB_UNPACK, .HT_GETCODE, .HT_DESCEND, .HT_ISLEAF, .HT_NODE] → (encode i).arg = c.arg) ∧
    (i.opcode ∈ [.BB_UNPACK, .FT_COUNT, .FT_LOAD, .CD_ENCODE] → (encode i).p = c.p)

/-- R63: "every header either selects one of the 17 commands or is illegal", the illegal ones being R63's three cases. -/
def Obligations.HeaderIsRejectedExactlyInTheThreeIllegalCases : Prop :=
  ∀ c : Command, (∃ flaw, decode c = .error (.illegalHeader flaw)) ↔ IllegalHeader c.hdr

/-- R63, R132: a step on an illegal header ends with IllegalCommand, `INFO = HDR`, and changes only `STATUS` and `ERRINFO`. -/
def Obligations.IllegalHeaderIsAnsweredIllegalCommand : Prop :=
  ∀ (s : State) (c : Command) (rest : List HostEvent),
    s.pending = .command c :: rest → IllegalHeader c.hdr →
    step s = .next ({ s with pending := rest }.afterFault .illegalCommand c.hdr.toNat)

/-- R62: no header selects two rows of the opcode map. -/
def Obligations.NoHeaderSelectsTwoRows : Prop :=
  ∀ (w : HeaderWord) (r r' : OpcodeRow), r ∈ opcodeTable → r' ∈ opcodeTable →
    r.selects w = true → r'.selects w = true → r = r'

/-- R62, R65, V13: header words of the spec decode to the commands they stand for. -/
def Obligations.SpecHeaderWordsDecode : Prop :=
  decode ⟨0x00000001#32, 0, []⟩ = .ok .sysReset ∧
  decode ⟨0x00000111#32, 0, []⟩ = .ok (.bbAppend true) ∧
  decode ⟨0x00000014#32, 3, [.byte 0x03]⟩ = .ok (.bbUnpack 3 [0x03]) ∧
  decode ⟨0x00000021#32, 0, [.entry ⟨0x41, 2⟩]⟩ = .ok (.ftLoad [⟨0x41, 2⟩]) ∧
  decode ⟨0x00000132#32, 10, []⟩ = .ok (.htDescend 10 true) ∧
  decode ⟨0x00000041#32, 0, []⟩ = .ok .cdDecode ∧
  decode ⟨0x00000141#32, 0, []⟩ = .error (.illegalHeader .strayB)

/-- R65: the assembler line of an instruction assembles to its encoding, and a status register name stands for its index. -/
def Obligations.AssembledLineIsTheEncoding : Prop :=
  (∀ i : Instr, (asmLine i).assemble = some (encode i)) ∧
  (∀ r : StatusRegister, (AsmLine.mk .SYS_RDSR [.reg r]).assemble = some (encode (.sysRdsr r.index)))

/-! ## The step -/

/-- R8, R50: a step on a command that decodes to a well-formed instruction is that instruction's meaning, on the state with the
command taken from the host's inputs. -/
def Obligations.StepRunsTheDecodedInstruction : Prop :=
  ∀ (s : State) (c : Command) (rest : List HostEvent) (i : Instr),
    s.pending = .command c :: rest → decode c = .ok i → i.wf s.params = true →
    step s = exec i { s with pending := rest }

/-- R145, R146: with no input waiting a step holds the state; the reset event, between commands or during one, gives the reset
state and no response. That the later inputs and the earlier responses stay is the model's choice (log entries 5 and 13). -/
def Obligations.NothingButACommandOrResetChangesTheState : Prop :=
  (∀ s : State, s.pending = [] → step s = .next s) ∧
  (∀ (s : State) (e : HostEvent) (rest : List HostEvent),
    s.pending = e :: rest → (e = .reset ∨ ∃ c, e = .resetDuring c) →
    step s = .next { State.resetOf s.params with pending := rest, responses := s.responses })

/-- R59 (the spec's own inference R147): every command that can be written down is answered, in every state, by a next state
with exactly one response more, and takes exactly its own input. -/
def Obligations.EveryTypedCommandIsAnsweredOnce : Prop :=
  ∀ (s : State) (c : Command) (rest : List HostEvent),
    s.pending = .command c :: rest → Typed s.params c →
    ∃ t r, step s = .next t ∧ t.pending = rest ∧ t.params = s.params ∧ t.responses = s.responses ++ [r]

/-! ## What reset leaves -/

/-- R32: at the start, after the reset event and after SYS_RESET everything is empty or 0, for every implementation, and all six
status registers read 0. -/
def Obligations.ResetLeavesEverythingEmptyOrZero : Prop :=
  ∀ s t : State,
    (t = State.resetOf s.params ∨ exec .sysReset s = .next t ∨
      ∃ rest, s.pending = .reset :: rest ∧ step s = .next t) →
    t.ft = [] ∧ t.tree = ⟨[], none⟩ ∧ t.bitbuf = [] ∧ t.status.code = 0 ∧ t.errinfo = 0 ∧
    (∀ i ≤ 5, t.readStatusRegister i = some 0)

/-! ## Invariants -/

/-- R24, R27, R58, and the spec's own inferences R29 and R31: every step keeps the invariants of the state. -/
def Obligations.EveryStepKeepsTheInvariants : Prop :=
  ∀ s t : State, s.Inv → step s = .next t → t.Inv

/-- R32, for the invariants of R24, R29 and R31: they hold after reset, for every implementation, so for `State.reset`. -/
def Obligations.ResetStateMeetsTheInvariants : Prop :=
  State.reset.Inv ∧ ∀ p : Params, (State.resetOf p).Inv

/-! ## Every command: frames, responses and faults -/

/-- R23, R24, R25, R33, R61, R121, R137: every command answers a next state, and each piece of state is unchanged by every command
but those the spec says write it. -/
def Obligations.EveryCommandChangesOnlyWhatItMayWrite : Prop :=
  ∀ (i : Instr) (s : State), ∃ t r, exec i s = .next t ∧
    t.params = s.params ∧ t.pending = s.pending ∧ t.responses = s.responses ++ [r] ∧
    (i.opcode ∉ [.BB_CLEAR, .BB_APPEND, .BB_UNPACK, .CD_ENCODE, .SYS_RESET] → t.bitbuf = s.bitbuf) ∧
    (i.opcode ∉ [.FT_COUNT, .FT_LOAD, .SYS_RESET] → t.ft = s.ft) ∧
    (i.opcode ∉ [.HT_BUILD, .SYS_RESET] → t.tree = s.tree) ∧
    (i.opcode ≠ .SYS_RDSR → t.status = r.st ∧ t.errinfo = r.info) ∧
    (i.opcode = .SYS_RDSR → t.status = s.status ∧ t.errinfo = s.errinfo)

/-- R59, R61: `INFO` is 0 when the status is OK; `VAL` is 0 and `Q` empty when it is not, and in every command that has no such
result. -/
def Obligations.ResponseCarriesOnlyTheResultsOfItsCommand : Prop :=
  ∀ (i : Instr) (s : State), ∃ t r, exec i s = .next t ∧ t.responses = s.responses ++ [r] ∧
    (r.st = .ok → r.info = 0) ∧
    (r.st ≠ .ok → r.val = 0 ∧ r.q = []) ∧
    (i.opcode ∉ [.SYS_RDSR, .BB_LEN, .HT_DESCEND, .HT_ISLEAF, .HT_NODE] → r.val = 0) ∧
    (i.opcode ∉ [.BB_PACK, .FT_READ, .HT_GETCODE, .HT_NODE, .CD_DECODE] → r.q = [])

/-- R134: a command that ends with a status other than OK leaves its destination at its reset value, writes the code and the
`INFO` (not SYS_RDSR), answers neither `VAL` nor `Q`, and changes nothing else; an illegal header changes no data state. -/
def Obligations.FaultClearsTheDestinationAndNothingElse : Prop :=
  (∀ (c : Command) (s : State), IllegalHeader c.hdr →
    issueCommand c s = .next (s.afterResponse ⟨.illegalCommand, c.hdr.toNat, 0, []⟩)) ∧
  ∀ (i : Instr) (s : State), ∃ t r, exec i s = .next t ∧ t.responses = s.responses ++ [r] ∧
    (r.st ≠ .ok → r.val = 0 ∧ r.q = [] ∧
      (i.opcode = .SYS_RDSR → t = { s with responses := s.responses ++ [r] }) ∧
      (i.opcode ∈ [.BB_APPEND, .BB_UNPACK, .CD_ENCODE] → t = { s with bitbuf := [] }.afterResponse r) ∧
      (i.opcode ∈ [.FT_COUNT, .FT_LOAD] → t = { s with ft := [] }.afterResponse r) ∧
      (i.opcode = .HT_BUILD → t = { s with tree := CodeTree.empty }.afterResponse r) ∧
      (i.opcode ∉ [.SYS_RDSR, .BB_APPEND, .BB_UNPACK, .CD_ENCODE, .FT_COUNT, .FT_LOAD, .HT_BUILD] → t = s.afterResponse r))

/-- R125: each status is raised by the commands of its row and by no other, and IllegalCommand by none (it is the header's). -/
def Obligations.EachStatusIsRaisedOnlyByTheCommandsOfItsRow : Prop :=
  ∀ (i : Instr) (s : State), ∃ t r, exec i s = .next t ∧ t.responses = s.responses ++ [r] ∧
    (r.st = .unknownSymbol → i.opcode ∈ [.CD_ENCODE, .HT_GETCODE]) ∧
    (r.st = .truncated → i.opcode = .CD_DECODE) ∧
    (r.st = .structuralViolation → i.opcode ∈ [.CD_DECODE, .HT_DESCEND]) ∧
    (r.st = .degenerateAlphabet → i.opcode = .HT_BUILD ∧ s.ft.length = 1) ∧
    (r.st = .capacityExceeded → i.opcode ∈ [.BB_APPEND, .BB_UNPACK, .FT_COUNT, .FT_LOAD, .HT_BUILD, .CD_ENCODE]) ∧
    (r.st = .illegalOperand →
      i.opcode ∈ [.SYS_RDSR, .BB_UNPACK, .FT_LOAD, .HT_GETCODE, .HT_DESCEND, .HT_ISLEAF, .HT_NODE]) ∧
    r.st ≠ .illegalCommand

/-- R131, R19: with the three capacities unbounded no command raises CapacityExceeded. -/
def Obligations.UnboundedBlockNeverExceedsCapacity : Prop :=
  ∀ (i : Instr) (s : State), s.params.kMax = none → s.params.cntMax = none → s.params.bitsMax = none →
    ∃ t r, exec i s = .next t ∧ t.responses = s.responses ++ [r] ∧ r.st ≠ .capacityExceeded

/-- R138: a failed command repeated at once with the same operands gives the same response, BB_APPEND excepted. -/
def Obligations.RepeatedFailureGivesTheSameResponse : Prop :=
  ∀ (i : Instr) (s : State), i.opcode ≠ .BB_APPEND →
    ∃ t r, exec i s = .next t ∧ t.responses = s.responses ++ [r] ∧
      (r.st ≠ .ok → ∃ t', exec i t = .next t' ∧ t'.responses = t.responses ++ [r])

/-- R47: reading has no side effect: a command that only reads gives the same response twice. -/
def Obligations.ReadingTwiceGivesTheSameResponse : Prop :=
  ∀ (i : Instr) (s : State),
    i.opcode ∈ [.BB_LEN, .BB_PACK, .FT_READ, .HT_GETCODE, .HT_DESCEND, .HT_ISLEAF, .HT_NODE, .CD_DECODE] →
    ∃ t r, exec i s = .next t ∧ t.responses = s.responses ++ [r] ∧
      exec i t = .next { t with responses := t.responses ++ [r] }

/-! ## System commands -/

/-- R121: SYS_RESET leaves the reset state and answers OK; the parameters stay. That the inputs waiting and the responses already
given stay too is the model's choice (log entry 13). -/
def Obligations.SysResetReturnsEverythingToReset : Prop :=
  ∀ (s : State) (arg : Nat) (p : List Elem),
    decode ⟨0x00000001#32, arg, p⟩ = .ok .sysReset ∧
    exec .sysReset s = .next
      { State.resetOf s.params with pending := s.pending, responses := s.responses ++ [⟨.ok, 0, 0, []⟩] }

/-- R122, R27, with the code numbers of R125: SYS_RDSR answers the register's value, or IllegalOperand above index 5, and writes
nothing at all. -/
def Obligations.SysRdsrReadsTheStatusRegisters : Prop :=
  ∀ (s : State) (index : Nat) (p : List Elem),
    decode ⟨0x00000002#32, index, p⟩ = .ok (.sysRdsr index) ∧
    [Status.ok, .unknownSymbol, .truncated, .structuralViolation, .degenerateAlphabet, .capacityExceeded, .illegalCommand,
      .illegalOperand].map Status.code = [0, 1, 2, 3, 4, 5, 6, 7] ∧
    (∀ v, [s.status.code, s.errinfo, s.bitbuf.length, s.ft.length, s.tree.node.length,
        s.tree.root.getD s.tree.node.length][index]? = some v →
      exec (.sysRdsr index) s = .next { s with responses := s.responses ++ [⟨.ok, 0, v, []⟩] }) ∧
    (5 < index →
      exec (.sysRdsr index) s = .next { s with responses := s.responses ++ [⟨.illegalOperand, index, 0, []⟩] })

/-! ## BitBuffer -/

/-- R76: BB_CLEAR empties the buffer. -/
def Obligations.BbClearEmptiesTheBuffer : Prop :=
  ∀ (s : State) (arg : Nat) (p : List Elem),
    decode ⟨0x00000010#32, arg, p⟩ = .ok .bbClear ∧
    exec .bbClear s = .next ({ s with bitbuf := [] }.afterOk 0 [])

/-- R77: BB_APPEND appends its bit, or raises CapacityExceeded with the full length and clears the buffer. -/
def Obligations.BbAppendAppendsOneBitOrFaults : Prop :=
  ∀ (s : State) (b : Bit) (arg : Nat) (p : List Elem),
    decode ⟨if b then 0x00000111#32 else 0x00000011#32, arg, p⟩ = .ok (.bbAppend b) ∧
    (s.params.bitsMax ≠ some s.bitbuf.length →
      exec (.bbAppend b) s = .next ({ s with bitbuf := s.bitbuf ++ [b] }.afterOk 0 [])) ∧
    (s.params.bitsMax = some s.bitbuf.length →
      exec (.bbAppend b) s = .next ({ s with bitbuf := [] }.afterFault .capacityExceeded s.bitbuf.length))

/-- R78: BB_LEN answers the exact bit count, the value SYS_RDSR reads in `BITLEN`. -/
def Obligations.BbLenAnswersTheBitCount : Prop :=
  ∀ (s : State) (arg : Nat) (p : List Elem),
    decode ⟨0x00000012#32, arg, p⟩ = .ok .bbLen ∧
    exec .bbLen s = .next (s.afterOk s.bitbuf.length []) ∧
    exec (.sysRdsr 2) s = .next { s with responses := s.responses ++ [⟨.ok, 0, s.bitbuf.length, []⟩] }

/-- R41, R42, R43, R79: BB_PACK answers `ceil8(n)` bytes; bit `i` of the buffer is bit `i mod 8` of byte `i div 8`; the padding
bits are 0. -/
def Obligations.BbPackPlacesEveryBitAndPadsWithZero : Prop :=
  ∀ (s : State) (arg : Nat) (p : List Elem),
    decode ⟨0x00000013#32, arg, p⟩ = .ok .bbPack ∧
    ∃ q : List Byte, exec .bbPack s = .next (s.afterOk 0 (q.map .byte)) ∧
      q.length = (s.bitbuf.length + 7) / 8 ∧
      (∀ i b, s.bitbuf[i]? = some b → ∃ y, q[i / 8]? = some y ∧ y.getLsbD (i % 8) = b) ∧
      (∀ j y t, q[j]? = some y → s.bitbuf.length ≤ 8 * j + t → y.getLsbD t = false)

/-- R80: BB_UNPACK loads exactly `n` bits, or raises IllegalOperand with the number of bytes when they are too few, or
CapacityExceeded with `n` when the buffer cannot hold them; the first test wins (R136). -/
def Obligations.BbUnpackLoadsExactlyTheBitsOrFaults : Prop :=
  ∀ (s : State) (n : Nat) (bytes : List Byte),
    decode ⟨0x00000014#32, n, bytes.map .byte⟩ = .ok (.bbUnpack n bytes) ∧
    (bytes.length < (n + 7) / 8 →
      exec (.bbUnpack n bytes) s = .next ({ s with bitbuf := [] }.afterFault .illegalOperand bytes.length)) ∧
    ((n + 7) / 8 ≤ bytes.length → (∃ m, s.params.bitsMax = some m ∧ m < n) →
      exec (.bbUnpack n bytes) s = .next ({ s with bitbuf := [] }.afterFault .capacityExceeded n)) ∧
    ((n + 7) / 8 ≤ bytes.length → (∀ m, s.params.bitsMax = some m → n ≤ m) →
      ∃ bits : List Bit, bits.length = n ∧
        (∀ i < n, ∃ y, bytes[i / 8]? = some y ∧ bits[i]? = some (y.getLsbD (i % 8))) ∧
        exec (.bbUnpack n bytes) s = .next ({ s with bitbuf := bits }.afterOk 0 []))

/-- The spec's own inference R81, from R79 and R80: unpacking the packed bytes with the exact count restores the buffer, on any
instance that can hold it; conversely, packing the result of BB_UNPACK gives the first `ceil8(n)` bytes with the padding bits
forced to 0. -/
def Obligations.PackAndUnpackAreInverseUpToPadding : Prop :=
  (∀ s u : State, fits u.params.bitsMax s.bitbuf.length = true →
    ∃ q : List Byte, exec .bbPack s = .next (s.afterOk 0 (q.map .byte)) ∧
      exec (.bbUnpack s.bitbuf.length q) u = .next ({ u with bitbuf := s.bitbuf }.afterOk 0 [])) ∧
  (∀ (s : State) (n : Nat) (bytes : List Byte), (n + 7) / 8 ≤ bytes.length → fits s.params.bitsMax n = true →
    ∃ (t : State) (q : List Byte), exec (.bbUnpack n bytes) s = .next t ∧ t.status = .ok ∧
      exec .bbPack t = .next (t.afterOk 0 (q.map .byte)) ∧ q.length = (n + 7) / 8 ∧
      ∀ j y z, q[j]? = some y → bytes[j]? = some z →
        ∀ k < 8, y.getLsbD k = (decide (8 * j + k < n) && z.getLsbD k))

/-- The spec's own inference R82, from R79: the bytes fix the bit count only to within eight values, and appending a 0 bit
inside the last byte changes no byte. -/
def Obligations.PackedBytesDoNotTellTheBitCount : Prop :=
  ∀ s : State, ∃ q : List Byte, exec .bbPack s = .next (s.afterOk 0 (q.map .byte)) ∧
    8 * q.length ≤ s.bitbuf.length + 7 ∧ s.bitbuf.length ≤ 8 * q.length ∧
    (s.bitbuf.length % 8 ≠ 0 →
      exec .bbPack { s with bitbuf := s.bitbuf ++ [false] } =
        .next ({ s with bitbuf := s.bitbuf ++ [false] }.afterOk 0 (q.map .byte)))

/-! ## FrequencyTable -/

/-- R86, result: entry `j` of the table is the `j`-th distinct symbol in order of first occurrence, with its number of
occurrences. The capacities fit the input. -/
def Obligations.FtCountCountsInOrderOfFirstOccurrence : Prop :=
  ∀ (s : State) (syms : List Symbol),
    fits s.params.kMax syms.dedup.length = true → (∀ x ∈ syms, fits s.params.cntMax (syms.count x) = true) →
    decode ⟨0x00000020#32, 0, syms.map .sym⟩ = .ok (.ftCount syms) ∧
    ∃ ft : List Entry, exec (.ftCount syms) s = .next ({ s with ft := ft }.afterOk 0 []) ∧
      (∀ x, x ∈ ft.map (·.sym) ↔ x ∈ syms) ∧
      (∀ e ∈ ft, e.cnt = syms.count e.sym) ∧
      ft.Pairwise (fun a b => syms.idxOf a.sym < syms.idxOf b.sym) ∧
      (ft.map (·.cnt)).sum = syms.length

/-- R86, faults: CapacityExceeded at the first symbol that would be one entry or one count too many, with its index, and the
table cleared. A new symbol's count is 1, so with `CNT_MAX = 0` the first symbol is one too many (log entry 9). -/
def Obligations.FtCountFaultsAtTheFirstSymbolThatDoesNotFit : Prop :=
  ∀ (s : State) (pre post : List Symbol) (x : Symbol),
    fits s.params.kMax pre.dedup.length = true → (∀ y ∈ pre, fits s.params.cntMax (pre.count y) = true) →
    (s.params.cntMax = some (pre.count x) ∨ (x ∉ pre ∧ s.params.kMax = some pre.dedup.length)) →
    exec (.ftCount (pre ++ x :: post)) s = .next ({ s with ft := [] }.afterFault .capacityExceeded pre.length)

/-- R87, OK: a table that meets the invariant of R31 is loaded as it stands, in its order. -/
def Obligations.FtLoadLoadsATableThatMeetsTheInvariant : Prop :=
  ∀ (s : State) (entries : List Entry), FtInv s.params entries →
    decode ⟨0x00000021#32, 0, entries.map .entry⟩ = .ok (.ftLoad entries) ∧
    exec (.ftLoad entries) s = .next ({ s with ft := entries }.afterOk 0 [])

/-- R87, R136, faults: the first entry that is bad is reported by its index, a zero count or a repeated symbol as IllegalOperand
before any capacity. -/
def Obligations.FtLoadFaultsAtTheFirstBadEntry : Prop :=
  ∀ (s : State) (pre post : List Entry) (e : Entry), FtInv s.params pre →
    ((e.cnt = 0 ∨ e.sym ∈ pre.map (·.sym)) →
      exec (.ftLoad (pre ++ e :: post)) s = .next ({ s with ft := [] }.afterFault .illegalOperand pre.length)) ∧
    (e.cnt ≠ 0 → e.sym ∉ pre.map (·.sym) →
      (fits s.params.kMax (pre.length + 1) = false ∨ fits s.params.cntMax e.cnt = false) →
      exec (.ftLoad (pre ++ e :: post)) s = .next ({ s with ft := [] }.afterFault .capacityExceeded pre.length))

/-- R88: FT_READ answers the entries in the table's order, and FT_LOAD with that `Q` restores the same table and ends OK, on any
instance that can hold it. -/
def Obligations.FtReadAnswersTheTableAndFtLoadRestoresIt : Prop :=
  ∀ (s : State) (arg : Nat) (p : List Elem),
    decode ⟨0x00000022#32, arg, p⟩ = .ok .ftRead ∧
    exec .ftRead s = .next (s.afterOk 0 (s.ft.map .entry)) ∧
    ∀ u : State, FtInv u.params s.ft →
      ∃ i, decode ⟨0x00000021#32, 0, s.ft.map .entry⟩ = .ok i ∧ exec i u = .next ({ u with ft := s.ft }.afterOk 0 [])

/-! ## HuffmanTree: HT_BUILD -/

/-- R98, R99, R129: an empty table builds the empty tree with status OK; a one-entry table raises DegenerateAlphabet. -/
def Obligations.HtBuildOfFewerThanTwoEntries : Prop :=
  ∀ (s : State) (arg : Nat) (p : List Elem),
    decode ⟨0x00000030#32, arg, p⟩ = .ok .htBuild ∧
    (s.ft.length = 0 → exec .htBuild s = .next ({ s with tree := CodeTree.empty }.afterOk 0 [])) ∧
    (s.ft.length = 1 → exec .htBuild s = .next ({ s with tree := CodeTree.empty }.afterFault .degenerateAlphabet 0))

/-- R94, R96 (the shape is the spec's own inference R100): from `k >= 2` entries whose total fits `CNT_MAX`, HT_BUILD builds a
tree of R29's shape whose leaf `j` is the table's entry `j`. -/
def Obligations.HtBuildBuildsAStrictBinaryTree : Prop :=
  ∀ s : State, FtInv s.params s.ft → 2 ≤ s.ft.length → fits s.params.cntMax (s.ft.map (·.cnt)).sum = true →
    ∃ t : CodeTree, exec .htBuild s = .next ({ s with tree := t }.afterOk 0 []) ∧
      t.Built s.params.cntMax s.ft.length ∧
      ∀ (j : Nat) (e : Entry), s.ft[j]? = some e → t.node[j]? = some (.leaf e.sym e.cnt)

/-- R95, R96 (the order is the spec's own inference R97): every internal node merges the two first candidates under "lower
frequency first; among equal frequencies, lower handle first", the first of them as its left child. -/
def Obligations.EveryMergeTakesTheTwoLeastCandidates : Prop :=
  ∀ s t : State, exec .htBuild s = .next t → t.status = .ok →
    ∀ h l r f, t.tree.node[h]? = some (.internal l r f) →
      t.tree.candidateAt h l ∧ t.tree.candidateAt h r ∧ before t.tree.node l r ∧
      f = freqAt t.tree.node l + freqAt t.tree.node r ∧
      ∀ c, t.tree.candidateAt h c → c ≠ l → c ≠ r → before t.tree.node r c

/-- The spec's own inference R97, from R94 to R96: the selection without sorting (log entry 18) builds the same tree, or
raises the same fault, for every table. -/
def Obligations.SelectionWithoutSortingBuildsTheSameTree : Prop :=
  ∀ (cntMax : Option Nat) (ft : List Entry), buildByPriority cntMax ft = buildTree cntMax ft

/-- R93, R131: at the first node whose frequency passes `CNT_MAX` HT_BUILD raises CapacityExceeded with the handle it would have
had; the tree is the one the unbounded block builds. -/
def Obligations.HtBuildFaultsAtTheFirstFrequencyTooLarge : Prop :=
  ∀ (s u : State) (h : Nat), 2 ≤ s.ft.length →
    exec .htBuild { s with params := { s.params with cntMax := none } } = .next u →
    s.ft.length ≤ h → h < u.tree.node.length →
    fits s.params.cntMax (freqAt u.tree.node h) = false →
    (∀ h', s.ft.length ≤ h' → h' < h → fits s.params.cntMax (freqAt u.tree.node h') = true) →
    exec .htBuild s = .next ({ s with tree := CodeTree.empty }.afterFault .capacityExceeded h)

/-- The spec's own inference R106, from R95 and R96: the two nodes merged have the least frequencies of the working list, and
the frequencies of the internal nodes do not decrease in creation order. -/
def Obligations.MergeFrequenciesDoNotDecrease : Prop :=
  ∀ s t : State, exec .htBuild s = .next t → t.status = .ok →
    (∀ h l r f, t.tree.node[h]? = some (.internal l r f) →
      freqAt t.tree.node l ≤ freqAt t.tree.node r ∧
      ∀ c, t.tree.candidateAt h c → c ≠ l → c ≠ r → freqAt t.tree.node r ≤ freqAt t.tree.node c) ∧
    (∀ h, s.ft.length ≤ h → h + 1 < t.tree.node.length → freqAt t.tree.node h ≤ freqAt t.tree.node (h + 1))

/-- R89, R93 (the spec's own inference R108): the table after FT_COUNT depends on the symbols alone (and on the parameters), and
the tree after HT_BUILD on the table alone (and on `CNT_MAX`), whatever else the two instances hold. -/
def Obligations.TableAndTreeDependOnTheirInputsAlone : Prop :=
  ∀ s u : State,
    (∀ syms : List Symbol, s.params = u.params →
      ∃ s' u', exec (.ftCount syms) s = .next s' ∧ exec (.ftCount syms) u = .next u' ∧
        s'.ft = u'.ft ∧ s'.status = u'.status ∧ s'.errinfo = u'.errinfo) ∧
    (s.ft = u.ft → s.params.cntMax = u.params.cntMax →
      ∃ s' u', exec .htBuild s = .next s' ∧ exec .htBuild u = .next u' ∧
        s'.tree = u'.tree ∧ s'.status = u'.status ∧ s'.errinfo = u'.errinfo)

/-! ## HuffmanTree: lookup and traversal -/

/-- R101: HT_GETCODE answers the one path from the root to the symbol's leaf, UnknownSymbol when no leaf holds it, IllegalOperand
when `ARG` names no symbol. -/
def Obligations.HtGetcodeAnswersTheOnePathToTheLeaf : Prop :=
  ∀ (s : State) (arg : Nat) (p : List Elem), TreeInv s.params.cntMax s.tree →
    decode ⟨0x00000031#32, arg, p⟩ = .ok (.htGetcode arg) ∧
    (arg < 2 ^ s.params.symW → arg ∈ s.tree.symbols →
      ∃ c, s.tree.IsCode arg c ∧ (∀ c', s.tree.IsCode arg c' → c' = c) ∧
        exec (.htGetcode arg) s = .next (s.afterOk 0 (c.map .bit))) ∧
    (arg < 2 ^ s.params.symW → arg ∉ s.tree.symbols →
      exec (.htGetcode arg) s = .next (s.afterFault .unknownSymbol arg)) ∧
    (2 ^ s.params.symW ≤ arg → exec (.htGetcode arg) s = .next (s.afterFault .illegalOperand arg))

/-- R102: HT_DESCEND answers the child in the direction of `B`; StructuralViolation on a leaf; IllegalOperand on no handle. -/
def Obligations.HtDescendAnswersTheChild : Prop :=
  ∀ (s : State) (h : Nat) (b : Bit) (p : List Elem),
    decode ⟨if b then 0x00000132#32 else 0x00000032#32, h, p⟩ = .ok (.htDescend h b) ∧
    (∀ l r f, s.tree.node[h]? = some (.internal l r f) →
      exec (.htDescend h b) s = .next (s.afterOk (if b = false then l else r) [])) ∧
    (∀ x f, s.tree.node[h]? = some (.leaf x f) →
      exec (.htDescend h b) s = .next (s.afterFault .structuralViolation h)) ∧
    (s.tree.node.length ≤ h → exec (.htDescend h b) s = .next (s.afterFault .illegalOperand h))

/-- R103: HT_ISLEAF answers 1 for a leaf and 0 for an internal node, so 1 exactly for `h < k` in a tree built from `k` entries. -/
def Obligations.HtIsleafTellsLeavesFromInternalNodes : Prop :=
  ∀ (s : State) (h : Nat) (p : List Elem),
    decode ⟨0x00000033#32, h, p⟩ = .ok (.htIsleaf h) ∧
    (∀ x f, s.tree.node[h]? = some (.leaf x f) → exec (.htIsleaf h) s = .next (s.afterOk 1 [])) ∧
    (∀ l r f, s.tree.node[h]? = some (.internal l r f) → exec (.htIsleaf h) s = .next (s.afterOk 0 [])) ∧
    (s.tree.node.length ≤ h → exec (.htIsleaf h) s = .next (s.afterFault .illegalOperand h)) ∧
    (∀ k, s.tree.Built s.params.cntMax k → h < s.tree.node.length →
      exec (.htIsleaf h) s = .next (s.afterOk (if h < k then 1 else 0) []))

/-- R104: HT_NODE answers the node's frequency and its symbol or its two children. -/
def Obligations.HtNodeAnswersTheNode : Prop :=
  ∀ (s : State) (h : Nat) (p : List Elem),
    decode ⟨0x00000034#32, h, p⟩ = .ok (.htNode h) ∧
    (∀ x f, s.tree.node[h]? = some (.leaf x f) → exec (.htNode h) s = .next (s.afterOk f [.sym x])) ∧
    (∀ l r f, s.tree.node[h]? = some (.internal l r f) →
      exec (.htNode h) s = .next (s.afterOk f [.handle l, .handle r])) ∧
    (s.tree.node.length ≤ h → exec (.htNode h) s = .next (s.afterFault .illegalOperand h))

/-- R105: no code of a built tree is a prefix of another symbol's. -/
def Obligations.CodesOfABuiltTreeArePrefixFree : Prop :=
  ∀ (cntMax : Option Nat) (t : CodeTree) (k : Nat), t.Built cntMax k →
    ∀ x y c d, t.IsCode x c → t.IsCode y d → x ≠ y → ¬ c <+: d

/-- The spec's own inference R107, from R100: every symbol has a code, and every code of a tree built from `k >= 2` entries has
between 1 and `k - 1` bits. -/
def Obligations.CodeLengthsAreBetweenOneAndEntriesLessOne : Prop :=
  ∀ (cntMax : Option Nat) (t : CodeTree) (k : Nat), t.Built cntMax k →
    (∀ x ∈ t.symbols, ∃ c, t.IsCode x c) ∧ ∀ x c, t.IsCode x c → 1 ≤ c.length ∧ c.length ≤ k - 1

/-- R30: a symbol-to-code cache (log entry 18) filled by one full traversal returns what HT_GETCODE's rule returns, for every
tree. -/
def Obligations.CodeCacheAgreesWithTheLookup : Prop :=
  ∀ (t : CodeTree) (x : Symbol), cachedCode t x = codeOf t x

/-! ## Codec -/

/-- R111, OK: CD_ENCODE replaces the buffer by the codes of the symbols, in order. -/
def Obligations.CdEncodeConcatenatesTheCodes : Prop :=
  ∀ (s : State) (syms : List Symbol) (codes : List (List Bit)), TreeInv s.params.cntMax s.tree →
    List.Forall₂ s.tree.IsCode syms codes → fits s.params.bitsMax codes.flatten.length = true →
    decode ⟨0x00000040#32, 0, syms.map .sym⟩ = .ok (.cdEncode syms) ∧
    exec (.cdEncode syms) s = .next ({ s with bitbuf := codes.flatten }.afterOk 0 [])

/-- R111, R126, R136, faults: the first symbol with no leaf, or whose code does not fit, is reported by its index, and the buffer
is left empty: "no partial output". -/
def Obligations.CdEncodeFaultsAtTheFirstSymbolThatFails : Prop :=
  ∀ (s : State) (pre post : List Symbol) (x : Symbol) (codes : List (List Bit)), TreeInv s.params.cntMax s.tree →
    List.Forall₂ s.tree.IsCode pre codes → fits s.params.bitsMax codes.flatten.length = true →
    (x ∉ s.tree.symbols →
      exec (.cdEncode (pre ++ x :: post)) s = .next ({ s with bitbuf := [] }.afterFault .unknownSymbol pre.length)) ∧
    (∀ c, s.tree.IsCode x c → fits s.params.bitsMax (codes.flatten.length + c.length) = false →
      exec (.cdEncode (pre ++ x :: post)) s = .next ({ s with bitbuf := [] }.afterFault .capacityExceeded pre.length))

/-- R117, OK: a buffer that is a concatenation of codes decodes to their symbols, and is not consumed. -/
def Obligations.CdDecodeOfCodesAnswersTheirSymbols : Prop :=
  ∀ (s : State) (syms : List Symbol) (codes : List (List Bit)) (arg : Nat) (p : List Elem),
    TreeInv s.params.cntMax s.tree → List.Forall₂ s.tree.IsCode syms codes → s.bitbuf = codes.flatten →
    decode ⟨0x00000041#32, arg, p⟩ = .ok .cdDecode ∧
    exec .cdDecode s = .next (s.afterOk 0 (syms.map .sym))

/-- R117, R127, R128, faults: bits that end inside a code give Truncated with the index of the code's first bit and no symbol;
bits against the empty tree give StructuralViolation at bit 0. -/
def Obligations.CdDecodeFaultsInsideACodeOrOnTheEmptyTree : Prop :=
  ∀ s : State, TreeInv s.params.cntMax s.tree →
    (∀ (syms : List Symbol) (codes : List (List Bit)) (tail : List Bit) (r h : Handle),
      List.Forall₂ s.tree.IsCode syms codes → s.bitbuf = codes.flatten ++ tail → tail ≠ [] →
      s.tree.root = some r → s.tree.walk r tail = some h → s.tree.isLeafAt h = false →
      exec .cdDecode s = .next (s.afterFault .truncated codes.flatten.length)) ∧
    (s.tree = CodeTree.empty → s.bitbuf ≠ [] → exec .cdDecode s = .next (s.afterFault .structuralViolation 0))

/-- The spec's own inference R119, from R117 and R100: "With a tree built from `k >= 2` entries CD_DECODE never raises
StructuralViolation": it ends OK or Truncated. -/
def Obligations.CdDecodeOnABuiltTreeNeverViolatesItsStructure : Prop :=
  ∀ (s : State) (k : Nat), s.tree.Built s.params.cntMax k →
    ∃ r, exec .cdDecode s = .next (s.afterResponse r) ∧ (r.st = .ok ∨ r.st = .truncated)

/-- Every decoded symbol consumes between 1 and `k - 1` bits (the spec's own inference, R120). -/
def Obligations.DecodedLengthIsBoundedByTheBits : Prop :=
  ∀ (s : State) (k : Nat), s.tree.Built s.params.cntMax k →
    ∃ r, exec .cdDecode s = .next (s.afterResponse r) ∧
      r.q.length ≤ s.bitbuf.length ∧ (r.st = .ok → s.bitbuf.length / (k - 1) ≤ r.q.length)

/-- The spec's own inference R149, from R117 and R80: `p` padding zeros decoded as data add `p div d` copies of the leftmost
leaf's symbol, whose code is `d` zeros, and give Truncated when `p mod d` is not 0. -/
def Obligations.PaddingZerosDecodeAsTheLeftmostSymbol : Prop :=
  ∀ (s : State) (k : Nat) (syms : List Symbol) (codes : List (List Bit)) (x : Symbol) (d p : Nat),
    s.tree.Built s.params.cntMax k → List.Forall₂ s.tree.IsCode syms codes →
    s.tree.IsCode x (List.replicate d false) → s.bitbuf = codes.flatten ++ List.replicate p false →
    (p % d = 0 → exec .cdDecode s = .next (s.afterOk 0 ((syms ++ List.replicate (p / d) x).map .sym))) ∧
    (p % d ≠ 0 → exec .cdDecode s = .next (s.afterFault .truncated (codes.flatten.length + d * (p / d))))

/-- The spec's own inference R118, from R111, R117 and R105: for every input with at least two distinct symbols FT_COUNT,
HT_BUILD, CD_ENCODE, CD_DECODE end OK and the last answers the input, given capacities that fit; for the empty input they end OK
with an empty result; for one distinct symbol HT_BUILD fails. -/
def Obligations.CountBuildEncodeDecodeReturnsTheInput : Prop :=
  (∀ s : State, ∃ s₁ s₂ s₃, exec (.ftCount []) s = .next s₁ ∧ s₁.status = .ok ∧
    exec .htBuild s₁ = .next s₂ ∧ s₂.status = .ok ∧ exec (.cdEncode []) s₂ = .next s₃ ∧ s₃.status = .ok ∧
    exec .cdDecode s₃ = .next (s₃.afterOk 0 [])) ∧
  (∀ (s : State) (x : Symbol) (n : Nat), fits s.params.kMax 1 = true → fits s.params.cntMax (n + 1) = true →
    ∃ s₁ s₂, exec (.ftCount (List.replicate (n + 1) x)) s = .next s₁ ∧ s₁.status = .ok ∧
      exec .htBuild s₁ = .next s₂ ∧ s₂.status = .degenerateAlphabet) ∧
  ∀ (s : State) (syms : List Symbol), 2 ≤ syms.dedup.length →
    fits s.params.kMax syms.dedup.length = true → fits s.params.cntMax syms.length = true →
    ∃ s₁ s₂, exec (.ftCount syms) s = .next s₁ ∧ s₁.status = .ok ∧ exec .htBuild s₁ = .next s₂ ∧ s₂.status = .ok ∧
      (fits s.params.bitsMax (syms.map fun x => ((codeOf s₂.tree x).getD []).length).sum = true →
        ∃ s₃, exec (.cdEncode syms) s₂ = .next s₃ ∧ s₃.status = .ok ∧
          exec .cdDecode s₃ = .next (s₃.afterOk 0 (syms.map .sym)))

/-! ## Pseudo-instructions and instances -/

/-- R66: the three expansions; a sequence goes on after an OK response and stops at the first other one, which is its own. -/
def Obligations.SequenceStopsAtTheFirstFailure : Prop :=
  (∀ s : State, runPseudo .htRoot s = exec (.sysRdsr 5) s) ∧
  (∀ (s : State) (syms : List Symbol),
    runPseudo (.compress syms) s = runSequence [.ftCount syms, .htBuild, .cdEncode syms, .bbPack, .bbLen] s) ∧
  (∀ (s : State) (table : List Entry) (n : Nat) (bytes : List Byte),
    runPseudo (.expand table n bytes) s = runSequence [.ftLoad table, .htBuild, .bbUnpack n bytes, .cdDecode] s) ∧
  ∀ (pre post : List Instr) (i : Instr) (s t u : State), runSequence pre s = .next t →
    (pre = [] ∨ t.lastStatus = some .ok) → exec i t = .next u →
    (u.lastStatus = some .ok → runSequence (pre ++ i :: post) s = runSequence post u) ∧
    (u.lastStatus ≠ some .ok → runSequence (pre ++ i :: post) s = .next u)

/-- R66, and the spec's own inferences R118 and R108: what COMPRESS answers on one instance, EXPAND on another turns back into
the input: the table of FT_READ, the bit count of BB_LEN and the bytes of BB_PACK are all it needs. -/
def Obligations.ExpandUndoesCompressOnAnotherInstance : Prop :=
  ∀ (s u t : State) (syms : List Symbol), 2 ≤ syms.dedup.length →
    runPseudo (.compress syms) s = .next t → t.lastStatus = some .ok →
    FtInv u.params t.ft → fits u.params.cntMax syms.length = true → fits u.params.bitsMax t.bitbuf.length = true →
    ∃ (bytes : List Byte) (v : State),
      t.responses.drop (s.responses.length + 3) =
        [⟨.ok, 0, 0, bytes.map .byte⟩, ⟨.ok, 0, t.bitbuf.length, []⟩] ∧
      runPseudo (.expand t.ft t.bitbuf.length bytes) u = .next v ∧
      v.responses = u.responses ++
        [⟨.ok, 0, 0, []⟩, ⟨.ok, 0, 0, []⟩, ⟨.ok, 0, 0, []⟩, ⟨.ok, 0, 0, syms.map .sym⟩]

/-- R144: instances "share no state and need no coordination": steps of two instances can be taken in either order, and a step of
one leaves every other as it was. -/
def Obligations.StepsOfTwoInstancesCommute : Prop :=
  ∀ (sys₀ sys₁ sys₂ : Instances) (j k : Nat), j ≠ k →
    stepInstance j sys₀ = .next sys₁ → stepInstance k sys₁ = .next sys₂ →
    (∃ sys₃, stepInstance k sys₀ = .next sys₃ ∧ stepInstance j sys₃ = .next sys₂) ∧
    sys₁[k]? = sys₀[k]? ∧ sys₁.length = sys₀.length

/-- R66, R59, with the spec's own inferences R107 and R118: COMPRESS of an input that has not exactly one distinct symbol
answers OK five times when the capacities fit; every code has less bits than there are distinct symbols, so this many bits are
enough. -/
def Obligations.CompressEndsOkWhenTheCapacitiesFit : Prop :=
  ∀ (s : State) (syms : List Symbol), syms.dedup.length ≠ 1 →
    fits s.params.kMax syms.dedup.length = true → fits s.params.cntMax syms.length = true →
    fits s.params.bitsMax (syms.length * (syms.dedup.length - 1)) = true →
    ∃ t rs, runPseudo (.compress syms) s = .next t ∧ t.responses = s.responses ++ rs ∧ rs.length = 5 ∧
      ∀ r ∈ rs, r.st = .ok
end

