-- ==== Sys2Proof/Laws/State.lean ====
section
/-! SUPPORT. One lemma per field per update of the state, true by rfl. -/

namespace Sys2Proof.Machine

open Sys2Proof

variable (s : State)

@[simp] theorem State.withFt_params (x : List Entry) : (s.withFt x).params = s.params := rfl
@[simp] theorem State.withFt_ft (x : List Entry) : (s.withFt x).ft = x := rfl
@[simp] theorem State.withFt_tree (x : List Entry) : (s.withFt x).tree = s.tree := rfl
@[simp] theorem State.withFt_bitbuf (x : List Entry) : (s.withFt x).bitbuf = s.bitbuf := rfl
@[simp] theorem State.withFt_status (x : List Entry) : (s.withFt x).status = s.status := rfl
@[simp] theorem State.withFt_errinfo (x : List Entry) : (s.withFt x).errinfo = s.errinfo := rfl
@[simp] theorem State.withFt_pending (x : List Entry) : (s.withFt x).pending = s.pending := rfl
@[simp] theorem State.withFt_responses (x : List Entry) : (s.withFt x).responses = s.responses := rfl

@[simp] theorem State.withTree_params (x : CodeTree) : (s.withTree x).params = s.params := rfl
@[simp] theorem State.withTree_ft (x : CodeTree) : (s.withTree x).ft = s.ft := rfl
@[simp] theorem State.withTree_tree (x : CodeTree) : (s.withTree x).tree = x := rfl
@[simp] theorem State.withTree_bitbuf (x : CodeTree) : (s.withTree x).bitbuf = s.bitbuf := rfl
@[simp] theorem State.withTree_status (x : CodeTree) : (s.withTree x).status = s.status := rfl
@[simp] theorem State.withTree_errinfo (x : CodeTree) : (s.withTree x).errinfo = s.errinfo := rfl
@[simp] theorem State.withTree_pending (x : CodeTree) : (s.withTree x).pending = s.pending := rfl
@[simp] theorem State.withTree_responses (x : CodeTree) : (s.withTree x).responses = s.responses := rfl

@[simp] theorem State.withBitbuf_params (x : List Bit) : (s.withBitbuf x).params = s.params := rfl
@[simp] theorem State.withBitbuf_ft (x : List Bit) : (s.withBitbuf x).ft = s.ft := rfl
@[simp] theorem State.withBitbuf_tree (x : List Bit) : (s.withBitbuf x).tree = s.tree := rfl
@[simp] theorem State.withBitbuf_bitbuf (x : List Bit) : (s.withBitbuf x).bitbuf = x := rfl
@[simp] theorem State.withBitbuf_status (x : List Bit) : (s.withBitbuf x).status = s.status := rfl
@[simp] theorem State.withBitbuf_errinfo (x : List Bit) : (s.withBitbuf x).errinfo = s.errinfo := rfl
@[simp] theorem State.withBitbuf_pending (x : List Bit) : (s.withBitbuf x).pending = s.pending := rfl
@[simp] theorem State.withBitbuf_responses (x : List Bit) : (s.withBitbuf x).responses = s.responses := rfl

@[simp] theorem State.withStatus_params (k : Status) (n : Nat) : (s.withStatus k n).params = s.params := rfl
@[simp] theorem State.withStatus_ft (k : Status) (n : Nat) : (s.withStatus k n).ft = s.ft := rfl
@[simp] theorem State.withStatus_tree (k : Status) (n : Nat) : (s.withStatus k n).tree = s.tree := rfl
@[simp] theorem State.withStatus_bitbuf (k : Status) (n : Nat) : (s.withStatus k n).bitbuf = s.bitbuf := rfl
@[simp] theorem State.withStatus_status (k : Status) (n : Nat) : (s.withStatus k n).status = k := rfl
@[simp] theorem State.withStatus_errinfo (k : Status) (n : Nat) : (s.withStatus k n).errinfo = n := rfl
@[simp] theorem State.withStatus_pending (k : Status) (n : Nat) : (s.withStatus k n).pending = s.pending := rfl
@[simp] theorem State.withStatus_responses (k : Status) (n : Nat) : (s.withStatus k n).responses = s.responses := rfl

@[simp] theorem State.withPending_params (x : List HostEvent) : (s.withPending x).params = s.params := rfl
@[simp] theorem State.withPending_ft (x : List HostEvent) : (s.withPending x).ft = s.ft := rfl
@[simp] theorem State.withPending_tree (x : List HostEvent) : (s.withPending x).tree = s.tree := rfl
@[simp] theorem State.withPending_bitbuf (x : List HostEvent) : (s.withPending x).bitbuf = s.bitbuf := rfl
@[simp] theorem State.withPending_status (x : List HostEvent) : (s.withPending x).status = s.status := rfl
@[simp] theorem State.withPending_errinfo (x : List HostEvent) : (s.withPending x).errinfo = s.errinfo := rfl
@[simp] theorem State.withPending_pending (x : List HostEvent) : (s.withPending x).pending = x := rfl
@[simp] theorem State.withPending_responses (x : List HostEvent) : (s.withPending x).responses = s.responses := rfl

@[simp] theorem State.respond_params (r : Response) : (s.respond r).params = s.params := rfl
@[simp] theorem State.respond_ft (r : Response) : (s.respond r).ft = s.ft := rfl
@[simp] theorem State.respond_tree (r : Response) : (s.respond r).tree = s.tree := rfl
@[simp] theorem State.respond_bitbuf (r : Response) : (s.respond r).bitbuf = s.bitbuf := rfl
@[simp] theorem State.respond_status (r : Response) : (s.respond r).status = s.status := rfl
@[simp] theorem State.respond_errinfo (r : Response) : (s.respond r).errinfo = s.errinfo := rfl
@[simp] theorem State.respond_pending (r : Response) : (s.respond r).pending = s.pending := rfl
@[simp] theorem State.respond_responses (r : Response) : (s.respond r).responses = s.responses ++ [r] := rfl

@[simp] theorem State.resetOf_params (p : Params) : (State.resetOf p).params = p := rfl
@[simp] theorem State.resetOf_ft (p : Params) : (State.resetOf p).ft = [] := rfl
@[simp] theorem State.resetOf_tree (p : Params) : (State.resetOf p).tree = CodeTree.empty := rfl
@[simp] theorem State.resetOf_bitbuf (p : Params) : (State.resetOf p).bitbuf = [] := rfl
@[simp] theorem State.resetOf_status (p : Params) : (State.resetOf p).status = .ok := rfl
@[simp] theorem State.resetOf_errinfo (p : Params) : (State.resetOf p).errinfo = 0 := rfl
@[simp] theorem State.resetOf_pending (p : Params) : (State.resetOf p).pending = [] := rfl
@[simp] theorem State.resetOf_responses (p : Params) : (State.resetOf p).responses = [] := rfl

end Sys2Proof.Machine
end

