-- ==== Sys2Proof/Laws/Ops.lean ====
section
/-! SUPPORT. What the shared operations can do: capacities, ending a command, clearing a destination, the index spaces of the
tree, the status registers. -/

namespace Sys2Proof.Machine

open Sys2Proof

/-! ## Capacities -/

@[simp] theorem fits_none (n : Nat) : fits none n = true := rfl

@[simp] theorem fits_some (m n : Nat) : fits (some m) n = true ↔ n ≤ m := by simp [fits]

theorem fits_iff (bound : Option Nat) (n : Nat) : fits bound n = true ↔ ∀ m, bound = some m → n ≤ m := by
  cases bound <;> simp

theorem fits_false_iff (bound : Option Nat) (n : Nat) : fits bound n = false ↔ ∃ m, bound = some m ∧ m < n := by
  cases bound <;> simp [fits]

theorem fits_mono {bound : Option Nat} {m n : Nat} (hmn : m ≤ n) (h : fits bound n = true) : fits bound m = true := by
  rw [fits_iff] at h ⊢
  intro b hb
  have := h b hb
  omega

theorem fits_zero (bound : Option Nat) : fits bound 0 = true := by cases bound <;> simp

theorem atBound_iff (bound : Option Nat) (n : Nat) : atBound bound n = true ↔ bound = some n := by
  cases bound <;> simp [atBound, eq_comm]

/-- Below the bound and not at it, one more still fits: the step of every growing sequence and count. -/
theorem fits_succ_of_not_atBound {bound : Option Nat} {n : Nat} (h : fits bound n = true) (h' : atBound bound n = false) :
    fits bound (n + 1) = true := by
  cases bound with
  | none => rfl
  | some m => simp [fits, atBound] at *; omega

/-! ## Ending a command -/

theorem State.complete_eq_afterOk (s : State) (val : Nat) (q : List Elem) : s.complete val q = s.afterOk val q := rfl

theorem State.raise_eq_afterFault (s : State) (d : Dest) (kind : Status) (info : Nat) :
    s.raise d kind info = (s.clear d).afterFault kind info := rfl

@[simp] theorem State.clear_none (s : State) : s.clear .none = s := rfl
@[simp] theorem State.clear_bitbuf (s : State) : s.clear .bitbuf = { s with bitbuf := [] } := rfl
@[simp] theorem State.clear_ft (s : State) : s.clear .ft = { s with ft := [] } := rfl
@[simp] theorem State.clear_tree (s : State) : s.clear .tree = { s with tree := CodeTree.empty } := rfl

/-- Clearing all state gives the reset state, under the same parameters and with the host's inputs and responses as they were
(R32, R146). -/
theorem State.clear_allState (s : State) :
    s.clear .allState = { State.resetOf s.params with pending := s.pending, responses := s.responses } := rfl

@[simp] theorem State.afterResponse_params (s : State) (r : Response) : (s.afterResponse r).params = s.params := rfl
@[simp] theorem State.afterResponse_ft (s : State) (r : Response) : (s.afterResponse r).ft = s.ft := rfl
@[simp] theorem State.afterResponse_tree (s : State) (r : Response) : (s.afterResponse r).tree = s.tree := rfl
@[simp] theorem State.afterResponse_bitbuf (s : State) (r : Response) : (s.afterResponse r).bitbuf = s.bitbuf := rfl
@[simp] theorem State.afterResponse_status (s : State) (r : Response) : (s.afterResponse r).status = r.st := rfl
@[simp] theorem State.afterResponse_errinfo (s : State) (r : Response) : (s.afterResponse r).errinfo = r.info := rfl
@[simp] theorem State.afterResponse_pending (s : State) (r : Response) : (s.afterResponse r).pending = s.pending := rfl
@[simp] theorem State.afterResponse_responses (s : State) (r : Response) :
    (s.afterResponse r).responses = s.responses ++ [r] := rfl

theorem State.afterOk_eq (s : State) (val : Nat) (q : List Elem) : s.afterOk val q = s.afterResponse ⟨.ok, 0, val, q⟩ := rfl

theorem State.afterFault_eq (s : State) (kind : Status) (info : Nat) :
    s.afterFault kind info = s.afterResponse ⟨kind, info, 0, []⟩ := rfl

/-- A command writes the same response whether or not `STATUS` and `ERRINFO` already hold it: reading twice (R47). -/
theorem State.afterResponse_afterResponse (s : State) (r : Response) :
    (s.afterResponse r).afterResponse r = { s.afterResponse r with responses := s.responses ++ [r] ++ [r] } := rfl

/-! ## The tree's index spaces -/

theorem freqAt_of_getElem? {nodes : List Node} {h : Handle} {n : Node} (hn : nodes[h]? = some n) : freqAt nodes h = n.freq := by
  simp [freqAt, hn]

/-- A node appended at the end changes no earlier frequency. -/
theorem freqAt_append_left {nodes more : List Node} {h : Handle} (hh : h < nodes.length) :
    freqAt (nodes ++ more) h = freqAt nodes h := by
  simp [freqAt, List.getElem?_append_left hh]

/-- The appended node's own frequency. -/
theorem freqAt_append_self (nodes : List Node) (n : Node) : freqAt (nodes ++ [n]) nodes.length = n.freq := by
  simp [freqAt]

/-- A position has a child exactly when it is an internal node; then it is `left` for 0 and `right` for 1 (R67, R102). -/
theorem CodeTree.child_eq_some {t : CodeTree} {cur : Option Handle} {b : Bit} {c : Handle} :
    t.child cur b = some c ↔
      ∃ h l r f, cur = some h ∧ t.node[h]? = some (.internal l r f) ∧ c = if b then r else l := by
  unfold CodeTree.child
  cases cur with
  | none => simp
  | some h =>
    cases hn : t.node[h]? with
    | none => simp [hn]
    | some n =>
      cases n with
      | leaf s f => simp [hn]
      | internal l r f => simp [hn, eq_comm]

theorem CodeTree.leafSymbol_eq_some {t : CodeTree} {h : Handle} {s : Symbol} :
    t.leafSymbol h = some s ↔ ∃ f, t.node[h]? = some (.leaf s f) := by
  unfold CodeTree.leafSymbol
  cases hn : t.node[h]? with
  | none => simp
  | some n => cases n <;> simp

/-- A leaf has no child in either direction (R102). -/
theorem CodeTree.child_of_leaf {t : CodeTree} {h : Handle} {s : Symbol} (hl : t.leafSymbol h = some s) (b : Bit) :
    t.child (some h) b = none := by
  obtain ⟨f, hf⟩ := CodeTree.leafSymbol_eq_some.mp hl
  simp [CodeTree.child, hf]

/-- A walk along two bit sequences is one walk after the other. -/
theorem CodeTree.walk_append (t : CodeTree) (h : Handle) (bits more : List Bit) :
    t.walk h (bits ++ more) = (t.walk h bits).bind fun h' => t.walk h' more := by
  induction bits generalizing h with
  | nil => rfl
  | cons b bits ih =>
    simp only [List.cons_append, CodeTree.walk]
    cases t.child (some h) b with
    | none => rfl
    | some h' => exact ih h'

/-! ## Status registers -/

/-- A register is read exactly at the indices 0 to 5 (R27, R122). -/
theorem State.readStatusRegister_isSome (s : State) (index : Nat) :
    (s.readStatusRegister index).isSome = true ↔ index ≤ 5 := by
  unfold State.readStatusRegister
  split <;> simp_all
  omega

/-- `STATUS` is one field of 8 bits; codes 8 to 255 are never produced (R27, R125). -/
theorem Status.code_lt (k : Status) : k.code < 8 := by cases k <;> decide

end Sys2Proof.Machine
end

