-- ==== Sys2Proof/Laws/BitBuffer.lean ====
section
/-! SUPPORT. The packing of bits into bytes, and the outcomes of the BitBuffer commands. -/

namespace Sys2Proof.Machine

open Sys2Proof

@[simp] theorem packBits_length (bits : List Bit) : (packBits bits).length = ceil8 bits.length := by simp [packBits]

@[simp] theorem unpackBits_length (n : Nat) (bytes : List Byte) : (unpackBits n bytes).length = n := by simp [unpackBits]

theorem packBits_getElem? {bits : List Bit} {j : Nat} (hj : j < ceil8 bits.length) :
    (packBits bits)[j]? = some (packedByte bits j) := by
  simp [packBits, hj]

theorem unpackBits_getElem? {n i : Nat} (bytes : List Byte) (hi : i < n) :
    (unpackBits n bytes)[i]? = some (unpackedBit bytes i) := by
  simp [unpackBits, hi]

/-- Eight bits given by a function, summed with their weights, and read back one at a time. -/
theorem getLsbD_weightedSum (f : Nat → Bit) {k : Nat} (hk : k < 8) :
    (BitVec.ofNat 8 (((List.range 8).map fun t => (f t).toNat * 2 ^ t).sum)).getLsbD k = f k := by
  have key : ∀ b₀ b₁ b₂ b₃ b₄ b₅ b₆ b₇ : Bool, ∀ k : Fin 8,
      (BitVec.ofNat 8 (b₀.toNat * 2 ^ 0 + (b₁.toNat * 2 ^ 1 + (b₂.toNat * 2 ^ 2 + (b₃.toNat * 2 ^ 3 +
        (b₄.toNat * 2 ^ 4 + (b₅.toNat * 2 ^ 5 + (b₆.toNat * 2 ^ 6 + (b₇.toNat * 2 ^ 7 + 0))))))))).getLsbD k =
      [b₀, b₁, b₂, b₃, b₄, b₅, b₆, b₇][k] := by decide
  have h := key (f 0) (f 1) (f 2) (f 3) (f 4) (f 5) (f 6) (f 7) ⟨k, hk⟩
  have e : ((List.range 8).map fun t => (f t).toNat * 2 ^ t).sum =
      (f 0).toNat * 2 ^ 0 + ((f 1).toNat * 2 ^ 1 + ((f 2).toNat * 2 ^ 2 + ((f 3).toNat * 2 ^ 3 +
        ((f 4).toNat * 2 ^ 4 + ((f 5).toNat * 2 ^ 5 + ((f 6).toNat * 2 ^ 6 + ((f 7).toNat * 2 ^ 7 + 0))))))) := rfl
  rw [e, h]
  match k, hk with
  | 0, _ | 1, _ | 2, _ | 3, _ | 4, _ | 5, _ | 6, _ | 7, _ => rfl

/-- Bit `k` of a packed byte is bit `8j + k` of the buffer, and 0 beyond its length (R41, R43). -/
theorem packedByte_getLsbD (bits : List Bit) (j : Nat) {k : Nat} (hk : k < 8) :
    (packedByte bits j).getLsbD k = (bits[8 * j + k]?).getD false :=
  getLsbD_weightedSum (fun t => (bits[8 * j + t]?).getD false) hk

/-- The outcomes of BB_APPEND (R77). -/
theorem execBbAppend_cases (b : Bit) (s : State) :
    (s.params.bitsMax = some s.bitbuf.length ∧
      execBbAppend b s = .next ({ s with bitbuf := [] }.afterFault .capacityExceeded s.bitbuf.length)) ∨
    (s.params.bitsMax ≠ some s.bitbuf.length ∧
      execBbAppend b s = .next ({ s with bitbuf := s.bitbuf ++ [b] }.afterOk 0 [])) := by
  unfold execBbAppend
  split
  · next h => exact .inl ⟨(atBound_iff _ _).mp h, rfl⟩
  · next h => exact .inr ⟨fun e => h ((atBound_iff _ _).mpr e), rfl⟩

/-- The outcomes of BB_UNPACK (R80). -/
theorem execBbUnpack_cases (n : Nat) (bytes : List Byte) (s : State) :
    (bytes.length < ceil8 n ∧
      execBbUnpack n bytes s = .next ({ s with bitbuf := [] }.afterFault .illegalOperand bytes.length)) ∨
    (ceil8 n ≤ bytes.length ∧ fits s.params.bitsMax n = false ∧
      execBbUnpack n bytes s = .next ({ s with bitbuf := [] }.afterFault .capacityExceeded n)) ∨
    (ceil8 n ≤ bytes.length ∧ fits s.params.bitsMax n = true ∧
      execBbUnpack n bytes s = .next ({ s with bitbuf := unpackBits n bytes }.afterOk 0 [])) := by
  unfold execBbUnpack
  split
  · next h => exact .inl ⟨h, rfl⟩
  · next h =>
    split
    · next h' => exact .inr (.inr ⟨by omega, h', rfl⟩)
    · next h' => exact .inr (.inl ⟨by omega, by simpa using h', rfl⟩)

end Sys2Proof.Machine
end

