-- ==== Sys2Proof/Laws/HuffTree.lean ====
section
/-! SUPPORT. The builder's sort and loop, the code lookup, and the outcomes of the HuffmanTree commands. -/

namespace Sys2Proof.Machine

open Sys2Proof

/-! ## The stable sort (R95) -/

theorem sortByFreq_perm (nodes : List Node) (w : List Handle) : (sortByFreq nodes w).Perm w :=
  List.perm_insertionSort _ w

@[simp] theorem sortByFreq_length (nodes : List Node) (w : List Handle) : (sortByFreq nodes w).length = w.length :=
  (sortByFreq_perm nodes w).length_eq

theorem sortByFreq_sorted (nodes : List Node) (w : List Handle) :
    (sortByFreq nodes w).Pairwise fun a b => freqAt nodes a ≤ freqAt nodes b := by
  have : IsTrans Handle fun a b => freqAt nodes a ≤ freqAt nodes b := ⟨fun _ _ _ => Nat.le_trans⟩
  have : Std.Total fun a b : Handle => freqAt nodes a ≤ freqAt nodes b := ⟨fun _ _ => Nat.le_total _ _⟩
  exact List.pairwise_insertionSort _ w

/-- Elements of equal frequency keep their order: the sort is stable. -/
theorem sortByFreq_stable (nodes : List Node) {w : List Handle} {a b : Handle} (hf : freqAt nodes a = freqAt nodes b)
    (h : [a, b].Sublist w) : [a, b].Sublist (sortByFreq nodes w) :=
  List.pair_sublist_insertionSort (r := fun a b => freqAt nodes a ≤ freqAt nodes b) hf.le h

/-- A sorted list of handles stays ordered by (frequency, handle) when the working list is in handle order among equal frequencies:
the argument of R97. -/
theorem sortByFreq_ordered (nodes : List Node) (w : List Handle)
    (hw : w.Pairwise fun a b => freqAt nodes a = freqAt nodes b → a < b) :
    (sortByFreq nodes w).Pairwise fun a b => freqAt nodes a ≤ freqAt nodes b ∧ (freqAt nodes a = freqAt nodes b → a < b) := by
  have hnodup : w.Nodup := hw.imp fun h e => by subst e; exact absurd (h rfl) (lt_irrefl _)
  refine (sortByFreq_sorted nodes w).and ?_
  rw [List.pairwise_iff_forall_sublist]
  intro a b hab hf
  have hne : a ≠ b := by
    rintro rfl
    have := hab.nodup ((sortByFreq_perm nodes w).nodup_iff.mpr hnodup)
    simp at this
  have ha : a ∈ w := (sortByFreq_perm nodes w).mem_iff.mp (hab.subset (by simp))
  have hb : b ∈ w := (sortByFreq_perm nodes w).mem_iff.mp (hab.subset (by simp))
  by_contra hlt
  have hba : [b, a].Sublist w := by
    have hcase : [a, b].Sublist w ∨ [b, a].Sublist w := by
      clear hw hnodup hab hf hlt
      induction w with
      | nil => simp at ha
      | cons x w ih =>
        rcases List.mem_cons.mp ha with rfl | ha' <;> rcases List.mem_cons.mp hb with rfl | hb'
        · exact absurd rfl hne
        · exact .inl (List.cons_sublist_cons.mpr (List.singleton_sublist.mpr hb'))
        · exact .inr (List.cons_sublist_cons.mpr (List.singleton_sublist.mpr ha'))
        · exact (ih ha' hb').imp (·.cons x) (·.cons x)
    rcases hcase with h | h
    · exact absurd (List.pairwise_iff_forall_sublist.mp hw h hf) hlt
    · exact h
  have h2 := sortByFreq_stable nodes hf.symm hba
  have hsn : (sortByFreq nodes w).Nodup := (sortByFreq_perm nodes w).nodup_iff.mpr hnodup
  have hp := List.pairwise_iff_forall_sublist (R := fun x y => (sortByFreq nodes w).idxOf x < (sortByFreq nodes w).idxOf y)
    (l := sortByFreq nodes w)
  have hidx : (sortByFreq nodes w).Pairwise
      fun x y => (sortByFreq nodes w).idxOf x < (sortByFreq nodes w).idxOf y := by
    rw [List.pairwise_iff_getElem]
    intro i j hi hj hij
    rw [hsn.idxOf_getElem i hi, hsn.idxOf_getElem j hj]
    exact hij
  have h₁ := hp.mp hidx hab
  have h₂ := hp.mp hidx h2
  omega

/-! ## The builder's loop -/

@[simp] theorem leavesOf_length (ft : List Entry) : (leavesOf ft).length = ft.length := by simp [leavesOf]

theorem leavesOf_getElem? (ft : List Entry) (j : Nat) :
    (leavesOf ft)[j]? = (ft[j]?).map fun e => Node.leaf e.sym e.cnt := by simp [leavesOf]

/-- One iteration on a sorted list of two or more (R96). -/
theorem mergeLoop_succ {cntMax : Option Nat} {k : Nat} {nodes : List Node} {w : List Handle} {a b : Handle}
    {rest : List Handle} (hs : sortByFreq nodes w = a :: b :: rest) :
    mergeLoop cntMax (k + 1) nodes w =
      if fits cntMax (freqAt nodes a + freqAt nodes b) then
        mergeLoop cntMax k (nodes ++ [.internal a b (freqAt nodes a + freqAt nodes b)]) (rest ++ [nodes.length])
      else .error ⟨.capacityExceeded, nodes.length⟩ := by
  simp only [mergeLoop, hs]

/-- With at most one element the loop has ended (R96: "Repeat until one node remains"). -/
theorem mergeLoop_of_length_le_one {cntMax : Option Nat} (k : Nat) {nodes : List Node} {w : List Handle} (hw : w.length ≤ 1) :
    mergeLoop cntMax k nodes w = .ok ⟨nodes, w.head?⟩ := by
  cases k with
  | zero => rfl
  | succ k =>
    have hl := sortByFreq_length nodes w
    simp only [mergeLoop]
    split
    · next hs => rw [hs] at hl; simp at hl; omega
    · rfl

/-- The nodes made so far stay where they are: handles are never reassigned (R26, R96). -/
theorem mergeLoop_prefix {cntMax : Option Nat} {k : Nat} {nodes : List Node} {w : List Handle} {t : CodeTree}
    (h : mergeLoop cntMax k nodes w = .ok t) : nodes <+: t.node := by
  induction k generalizing nodes w with
  | zero => simp only [mergeLoop, Except.ok.injEq] at h; subst h; exact List.prefix_rfl
  | succ k ih =>
    simp only [mergeLoop] at h
    split at h
    · split at h
      · exact (List.prefix_append _ _).trans (ih h)
      · cases h
    · simp only [Except.ok.injEq] at h; subst h; exact List.prefix_rfl

/-- A failure of the loop is CapacityExceeded with a handle not yet given (R93, R135). -/
theorem mergeLoop_error {cntMax : Option Nat} {k : Nat} {nodes : List Node} {w : List Handle} {trap : Trap}
    (h : mergeLoop cntMax k nodes w = .error trap) : trap.kind = .capacityExceeded ∧ nodes.length ≤ trap.info := by
  induction k generalizing nodes w with
  | zero => simp [mergeLoop] at h
  | succ k ih =>
    simp only [mergeLoop] at h
    split at h
    · split at h
      · obtain ⟨h₁, h₂⟩ := ih h
        exact ⟨h₁, by simp at h₂; omega⟩
      · simp only [Except.error.injEq] at h; subst h; exact ⟨rfl, le_rfl⟩
    · cases h

/-- HT_BUILD fails with DegenerateAlphabet on a one-entry table, and otherwise only with CapacityExceeded (R93, R99). -/
theorem buildTree_error {cntMax : Option Nat} {ft : List Entry} {trap : Trap} (h : buildTree cntMax ft = .error trap) :
    (ft.length = 1 ∧ trap = ⟨.degenerateAlphabet, 0⟩) ∨
    (2 ≤ ft.length ∧ trap.kind = .capacityExceeded ∧ ft.length ≤ trap.info) := by
  match ft, h with
  | [_], h => exact .inl ⟨rfl, by simpa [buildTree] using h.symm⟩
  | e :: e' :: rest, h =>
    obtain ⟨h₁, h₂⟩ := mergeLoop_error h
    exact .inr ⟨by simp, h₁, by simpa using h₂⟩

/-- The outcomes of HT_BUILD (R93). -/
theorem execHtBuild_cases (s : State) :
    (∃ t, buildTree s.params.cntMax s.ft = .ok t ∧ execHtBuild s = .next ({ s with tree := t }.afterOk 0 [])) ∨
    (∃ trap, buildTree s.params.cntMax s.ft = .error trap ∧
      execHtBuild s = .next ({ s with tree := CodeTree.empty }.afterFault trap.kind trap.info)) := by
  unfold execHtBuild
  cases buildTree s.params.cntMax s.ft with
  | ok t => exact .inl ⟨t, rfl, rfl⟩
  | error trap => exact .inr ⟨trap, rfl, rfl⟩

/-! ## The lookup -/

/-- What the lookup finds is a walk from `h` to a leaf of the symbol, after the path already taken (R101). -/
theorem findCode_walk {t : CodeTree} {s : Symbol} {depth : Nat} {h : Handle} {path c : List Bit}
    (hc : findCode t.node s depth h path = some c) :
    ∃ bits h', c = path ++ bits ∧ t.walk h bits = some h' ∧ t.leafSymbol h' = some s := by
  induction depth generalizing h path with
  | zero => simp [findCode] at hc
  | succ depth ih =>
    simp only [findCode] at hc
    split at hc
    · next x f hn =>
      split at hc
      · next hx =>
        simp only [Option.some.injEq] at hc
        subst hc hx
        exact ⟨[], h, by simp, rfl, CodeTree.leafSymbol_eq_some.mpr ⟨f, hn⟩⟩
      · cases hc
    · next l r f hn =>
      split at hc
      · next c' hl =>
        simp only [Option.some.injEq] at hc
        subst hc
        obtain ⟨bits, h', rfl, hw, hs⟩ := ih hl
        exact ⟨false :: bits, h', by simp, by simpa [CodeTree.walk, CodeTree.child, hn] using hw, hs⟩
      · obtain ⟨bits, h', rfl, hw, hs⟩ := ih hc
        exact ⟨true :: bits, h', by simp, by simpa [CodeTree.walk, CodeTree.child, hn] using hw, hs⟩
    · cases hc

/-- The outcomes of HT_GETCODE (R101). -/
theorem execHtGetcode_cases (arg : Nat) (s : State) :
    (2 ^ s.params.symW ≤ arg ∧ execHtGetcode arg s = .next (s.afterFault .illegalOperand arg)) ∨
    (arg < 2 ^ s.params.symW ∧ codeOf s.tree arg = none ∧
      execHtGetcode arg s = .next (s.afterFault .unknownSymbol arg)) ∨
    (∃ c, arg < 2 ^ s.params.symW ∧ codeOf s.tree arg = some c ∧
      execHtGetcode arg s = .next (s.afterOk 0 (c.map .bit))) := by
  unfold execHtGetcode symbolOfArg
  by_cases h : arg < 2 ^ s.params.symW
  · simp only [h, if_true, true_and]
    cases codeOf s.tree arg with
    | none => exact .inr (.inl ⟨rfl, rfl⟩)
    | some c => exact .inr (.inr ⟨c, rfl, rfl⟩)
  · simp only [h, if_false]
    exact .inl ⟨by omega, rfl⟩

end Sys2Proof.Machine
end

