-- ==== Sys2Proof/Laws/Codec.lean ====
section
/-! SUPPORT. The codec's loops and the outcomes of its commands. -/

namespace Sys2Proof.Machine

open Sys2Proof

/-- CD_ENCODE's loop keeps the output within the buffer (R24). -/
theorem encodeLoop_fits {bitsMax : Option Nat} {t : CodeTree} {syms : List Symbol} {i : Nat} {out out' : List Bit}
    (hout : fits bitsMax out.length = true) (h : encodeLoop bitsMax t syms i out = .ok out') :
    fits bitsMax out'.length = true := by
  induction syms generalizing i out with
  | nil => simp only [encodeLoop, Except.ok.injEq] at h; exact h ▸ hout
  | cons s rest ih =>
    simp only [encodeLoop] at h
    split at h
    · cases h
    · split at h
      · next hf => exact ih (by simpa using hf) h
      · cases h

/-- CD_ENCODE's loop on two inputs one after the other. -/
theorem encodeLoop_append (bitsMax : Option Nat) (t : CodeTree) (xs ys : List Symbol) (i : Nat) (out : List Bit) :
    encodeLoop bitsMax t (xs ++ ys) i out =
      match encodeLoop bitsMax t xs i out with
      | .ok out' => encodeLoop bitsMax t ys (i + xs.length) out'
      | .error trap => .error trap := by
  induction xs generalizing i out with
  | nil => simp [encodeLoop]
  | cons x xs ih =>
    simp only [List.cons_append, encodeLoop]
    cases codeOf t x with
    | none => rfl
    | some c =>
      dsimp only
      split
      · simp only [ih, List.length_cons, show i + 1 + xs.length = i + (xs.length + 1) by omega]
      · rfl

/-- One iteration of CD_DECODE's loop that does not reach a leaf (R117). -/
theorem decodeLoop_cons_internal {t : CodeTree} {b : Bit} {rest : List Bit} {i : Nat} {cur : Option Handle}
    {out : List Symbol} {start : Nat} {h : Handle} (hc : t.child cur b = some h) (hl : t.leafSymbol h = none) :
    decodeLoop t (b :: rest) i cur out start = decodeLoop t rest (i + 1) (some h) out start := by
  simp only [decodeLoop, hc, hl]

/-- One iteration of CD_DECODE's loop that reaches a leaf: emit, return to the root (R117). -/
theorem decodeLoop_cons_leaf {t : CodeTree} {b : Bit} {rest : List Bit} {i : Nat} {cur : Option Handle}
    {out : List Symbol} {start : Nat} {h : Handle} {s : Symbol} (hc : t.child cur b = some h) (hl : t.leafSymbol h = some s) :
    decodeLoop t (b :: rest) i cur out start = decodeLoop t rest (i + 1) t.root (out ++ [s]) (i + 1) := by
  simp only [decodeLoop, hc, hl]

/-- A failure of CD_DECODE's loop is Truncated or StructuralViolation (R125). -/
theorem decodeLoop_error {t : CodeTree} {bits : List Bit} {i : Nat} {cur : Option Handle} {out : List Symbol} {start : Nat}
    {trap : Trap} (h : decodeLoop t bits i cur out start = .error trap) :
    trap.kind = .truncated ∨ trap.kind = .structuralViolation := by
  induction bits generalizing i cur out start with
  | nil =>
    simp only [decodeLoop] at h
    split at h
    · cases h
    · simp only [Except.error.injEq] at h; subst h; exact .inl rfl
  | cons b rest ih =>
    simp only [decodeLoop] at h
    split at h
    · simp only [Except.error.injEq] at h; subst h; exact .inr rfl
    · split at h <;> exact ih h

/-- A failure of CD_ENCODE's loop is UnknownSymbol or CapacityExceeded, at an index of its input (R111, R125). -/
theorem encodeLoop_error {bitsMax : Option Nat} {t : CodeTree} {syms : List Symbol} {i : Nat} {out : List Bit} {trap : Trap}
    (h : encodeLoop bitsMax t syms i out = .error trap) :
    (trap.kind = .unknownSymbol ∨ trap.kind = .capacityExceeded) ∧ i ≤ trap.info ∧ trap.info < i + syms.length := by
  induction syms generalizing i out with
  | nil => simp [encodeLoop] at h
  | cons s rest ih =>
    simp only [encodeLoop] at h
    split at h
    · simp only [Except.error.injEq] at h; subst h; exact ⟨.inl rfl, by simp, by simp⟩
    · split at h
      · obtain ⟨h₁, h₂, h₃⟩ := ih h
        exact ⟨h₁, by omega, by simp; omega⟩
      · simp only [Except.error.injEq] at h; subst h; exact ⟨.inr rfl, by simp, by simp⟩

/-- The outcomes of CD_ENCODE (R111). -/
theorem execCdEncode_cases (syms : List Symbol) (s : State) :
    (∃ out, encodeLoop s.params.bitsMax s.tree syms 0 [] = .ok out ∧
      execCdEncode syms s = .next ({ s with bitbuf := out }.afterOk 0 [])) ∨
    (∃ trap, encodeLoop s.params.bitsMax s.tree syms 0 [] = .error trap ∧
      execCdEncode syms s = .next ({ s with bitbuf := [] }.afterFault trap.kind trap.info)) := by
  unfold execCdEncode
  cases encodeLoop s.params.bitsMax s.tree syms 0 [] with
  | ok out => exact .inl ⟨out, rfl, rfl⟩
  | error trap => exact .inr ⟨trap, rfl, rfl⟩

/-- The outcomes of CD_DECODE (R117). -/
theorem execCdDecode_cases (s : State) :
    (∃ out, decodeBits s.tree s.bitbuf = .ok out ∧ execCdDecode s = .next (s.afterOk 0 (out.map .sym))) ∨
    (∃ trap, decodeBits s.tree s.bitbuf = .error trap ∧ execCdDecode s = .next (s.afterFault trap.kind trap.info)) := by
  unfold execCdDecode
  cases decodeBits s.tree s.bitbuf with
  | ok out => exact .inl ⟨out, rfl, rfl⟩
  | error trap => exact .inr ⟨trap, rfl, rfl⟩

end Sys2Proof.Machine
end

