-- ==== Sys2Proof/Laws/Decode.lean ====
section
/-! SUPPORT. The payload readers and the header words. -/

namespace Sys2Proof

/-- A payload of symbols is read back whole. -/
@[simp] theorem symbolsOf_map (syms : List Symbol) : symbolsOf (syms.map .sym) = some syms := by
  induction syms with
  | nil => rfl
  | cons x syms ih => simp [symbolsOf, ih]

/-- A payload of bytes is read back whole. -/
@[simp] theorem bytesOf_map (bytes : List Byte) : bytesOf (bytes.map .byte) = some bytes := by
  induction bytes with
  | nil => rfl
  | cons x bytes ih => simp [bytesOf, ih]

/-- A payload of table entries is read back whole. -/
@[simp] theorem entriesOf_map (entries : List Entry) : entriesOf (entries.map .entry) = some entries := by
  induction entries with
  | nil => rfl
  | cons x entries ih => simp [entriesOf, ih]

/-- A payload read as symbols is made of these symbols and nothing else. -/
theorem symbolsOf_eq_some {p : List Elem} {syms : List Symbol} : symbolsOf p = some syms ↔ p = syms.map .sym := by
  constructor
  · intro h
    induction p generalizing syms with
    | nil => simp [symbolsOf] at h; simp [← h]
    | cons e p ih =>
      cases e <;> simp [symbolsOf] at h
      obtain ⟨l, hl, rfl⟩ := h
      simp [ih hl]
  · rintro rfl
    exact symbolsOf_map syms

/-- The header of every row, with either value of `B` where the row has it, selects its row. -/
theorem selectOpcode_headerWord (op : Opcode) (b : Bit) (h : b = true → op = .BB_APPEND ∨ op = .HT_DESCEND) :
    selectOpcode (headerWord op b) = some op := by
  cases b
  · cases op <;> decide
  · rcases h rfl with rfl | rfl <;> decide

/-- Bit 8 of a header word is its `B` operand. -/
theorem bField_headerWord (op : Opcode) (b : Bit) : bField (headerWord op b) = b := by
  cases b <;> cases op <;> decide

/-- Once the header has selected a row, the operands decide. -/
theorem decode_of_select {c : Command} {op : Opcode} (h : selectOpcode c.hdr = some op) : decode c = decodeOperands op c := by
  simp only [decode, h]

/-- A header word has 0 in `ZERO` (R56). -/
theorem zeroField_headerWord (op : Opcode) (b : Bit) : zeroField (headerWord op b) = 0 := by
  cases b <;> cases op <;> decide

end Sys2Proof
end

