-- ==== Sys2Proof/Laws/FreqTable.lean ====
section
/-! SUPPORT. The frequency table's loops, and the outcomes of the FrequencyTable commands. -/

namespace Sys2Proof.Machine

open Sys2Proof

theorem FtInv.nil (p : Params) : FtInv p [] :=
  { distinct := by simp, positive := by simp, countFits := by simp, lengthFits := fits_zero _ }

/-- No entry is found exactly for a symbol that no entry has. -/
theorem findEntry_eq_none {t : List Entry} {s : Symbol} : findEntry t s = none ↔ s ∉ t.map (·.sym) := by
  simp [findEntry]

/-- The entry found is an entry of the table, and of that symbol. -/
theorem findEntry_eq_some {t : List Entry} {s : Symbol} {e : Entry} (h : findEntry t s = some e) : e ∈ t ∧ e.sym = s := by
  unfold findEntry at h
  exact ⟨List.mem_of_find?_eq_some h, by simpa using List.find?_some h⟩

/-- Incrementing changes no symbol and no order. -/
@[simp] theorem incrementEntry_map_sym (t : List Entry) (s : Symbol) :
    (incrementEntry t s).map (·.sym) = t.map (·.sym) := by
  simp only [incrementEntry, List.map_map]
  exact List.map_congr_left fun e _ => by simp only [Function.comp]; split <;> rfl

@[simp] theorem incrementEntry_length (t : List Entry) (s : Symbol) : (incrementEntry t s).length = t.length := by
  simp [incrementEntry]

theorem mem_incrementEntry {t : List Entry} {s : Symbol} {e : Entry} :
    e ∈ incrementEntry t s ↔ ∃ e₀ ∈ t, e = if e₀.sym = s then ⟨e₀.sym, e₀.cnt + 1⟩ else e₀ := by
  simp only [incrementEntry, List.mem_map]
  constructor <;> rintro ⟨e₀, h, rfl⟩ <;> exact ⟨e₀, h, rfl⟩

/-- With distinct symbols the entry found is the only one of its symbol. -/
theorem findEntry_unique {t : List Entry} {s : Symbol} {e e' : Entry} (hd : (t.map (·.sym)).Nodup)
    (h : findEntry t s = some e) (h' : e' ∈ t) (hs : e'.sym = s) : e' = e := by
  obtain ⟨he, hes⟩ := findEntry_eq_some h
  exact List.inj_on_of_nodup_map hd h' he (by rw [hs, hes])

/-- The outcomes of one iteration of FT_COUNT (R86): a known symbol is counted, a new one is entered with count 1, or the
capacity is passed. -/
theorem countSymbol_cases (p : Params) (t : List Entry) (s : Symbol) :
    (∃ e, findEntry t s = some e ∧ atBound p.cntMax e.cnt = false ∧ countSymbol p t s = some (incrementEntry t s)) ∨
    (s ∉ t.map (·.sym) ∧ atBound p.kMax t.length = false ∧ fits p.cntMax 1 = true ∧
      countSymbol p t s = some (t ++ [⟨s, 1⟩])) ∨
    (((∃ e, findEntry t s = some e ∧ atBound p.cntMax e.cnt = true) ∨
      (s ∉ t.map (·.sym) ∧ (atBound p.kMax t.length = true ∨ fits p.cntMax 1 = false))) ∧ countSymbol p t s = none) := by
  unfold countSymbol
  cases he : findEntry t s with
  | some e =>
    cases hb : atBound p.cntMax e.cnt with
    | false => exact .inl ⟨e, rfl, hb, by simp [hb]⟩
    | true => exact .inr (.inr ⟨.inl ⟨e, rfl, hb⟩, by simp [hb]⟩)
  | none =>
    have hs := findEntry_eq_none.mp he
    cases hb : atBound p.kMax t.length with
    | true => exact .inr (.inr ⟨.inr ⟨hs, .inl rfl⟩, rfl⟩)
    | false =>
      cases hf : fits p.cntMax 1 with
      | true => exact .inr (.inl ⟨hs, rfl, rfl, rfl⟩)
      | false => exact .inr (.inr ⟨.inr ⟨hs, .inr rfl⟩, rfl⟩)

/-- Counting a known symbol below the bound keeps the invariant of R31. -/
theorem FtInv.increment {p : Params} {t : List Entry} {s : Symbol} {e : Entry} (ht : FtInv p t)
    (he : findEntry t s = some e) (hb : atBound p.cntMax e.cnt = false) : FtInv p (incrementEntry t s) := by
  refine ⟨by simpa using ht.distinct, ?_, ?_, by simpa using ht.lengthFits⟩
  · rintro e' he'
    obtain ⟨e₀, h₀, rfl⟩ := mem_incrementEntry.mp he'
    have := ht.positive e₀ h₀
    split
    · simp
    · exact this
  · rintro e' he'
    obtain ⟨e₀, h₀, rfl⟩ := mem_incrementEntry.mp he'
    split
    · next hs =>
      obtain rfl := findEntry_unique ht.distinct he h₀ hs
      exact fits_succ_of_not_atBound (ht.countFits _ h₀) hb
    · exact ht.countFits e₀ h₀

/-- Entering a new symbol below the bounds keeps the invariant of R31. -/
theorem FtInv.append_new {p : Params} {t : List Entry} {s : Symbol} (ht : FtInv p t) (hs : s ∉ t.map (·.sym))
    (hb : atBound p.kMax t.length = false) (hf : fits p.cntMax 1 = true) : FtInv p (t ++ [⟨s, 1⟩]) := by
  refine ⟨?_, ?_, ?_, by simpa using fits_succ_of_not_atBound ht.lengthFits hb⟩
  · simp only [List.map_append, List.map_cons, List.map_nil]
    exact List.Nodup.append ht.distinct (by simp) (by simpa using hs)
  · intro e' he'
    rcases List.mem_append.mp he' with h' | h'
    · exact ht.positive e' h'
    · simp at h'; simp [h']
  · intro e' he'
    rcases List.mem_append.mp he' with h' | h'
    · exact ht.countFits e' h'
    · simp at h'; simpa [h'] using hf

/-- One iteration of FT_COUNT keeps the invariant of R31. -/
theorem countSymbol_keeps_inv {p : Params} {t t' : List Entry} {s : Symbol} (ht : FtInv p t)
    (h : countSymbol p t s = some t') : FtInv p t' := by
  rcases countSymbol_cases p t s with ⟨e, he, hb, h'⟩ | ⟨hs, hb, hf, h'⟩ | ⟨-, h'⟩
  · obtain rfl : incrementEntry t s = t' := by simpa [h'] using h
    exact ht.increment he hb
  · obtain rfl : t ++ [⟨s, 1⟩] = t' := by simpa [h'] using h
    exact ht.append_new hs hb hf
  · cases h'.symm.trans h

/-- FT_COUNT's whole loop keeps the invariant of R31. -/
theorem countLoop_keeps_inv {p : Params} (syms : List Symbol) (i : Nat) {t t' : List Entry}
    (ht : FtInv p t) (h : countLoop p syms i t = .ok t') : FtInv p t' := by
  induction syms generalizing i t with
  | nil => simp only [countLoop, Except.ok.injEq] at h; exact h ▸ ht
  | cons s rest ih =>
    simp only [countLoop] at h
    split at h
    · next t₁ h₁ => exact ih (i + 1) (countSymbol_keeps_inv ht h₁) h
    · cases h

/-- A failure of FT_COUNT's loop is CapacityExceeded, at an index of its input (R86, R135). -/
theorem countLoop_error {p : Params} {syms : List Symbol} {i : Nat} {t : List Entry} {trap : Trap}
    (h : countLoop p syms i t = .error trap) : trap.kind = .capacityExceeded ∧ i ≤ trap.info ∧ trap.info < i + syms.length := by
  induction syms generalizing i t with
  | nil => simp [countLoop] at h
  | cons s rest ih =>
    simp only [countLoop] at h
    split at h
    · obtain ⟨h₁, h₂, h₃⟩ := ih h
      exact ⟨h₁, by omega, by simp; omega⟩
    · simp only [Except.error.injEq] at h
      subst h
      exact ⟨rfl, by simp, by simp⟩

/-- FT_COUNT's loop on two inputs one after the other. -/
theorem countLoop_append (p : Params) (xs ys : List Symbol) (i : Nat) (t : List Entry) :
    countLoop p (xs ++ ys) i t =
      match countLoop p xs i t with
      | .ok t' => countLoop p ys (i + xs.length) t'
      | .error trap => .error trap := by
  induction xs generalizing i t with
  | nil => simp [countLoop]
  | cons x xs ih =>
    simp only [List.cons_append, countLoop]
    cases countSymbol p t x with
    | none => rfl
    | some t' => simp only [ih, List.length_cons]; congr 1; funext; congr 1; omega

/-- FT_LOAD's tests of one entry (R87): which trap, if any. -/
theorem loadFault_cases (p : Params) (seen : List Symbol) (j : Nat) (e : Entry) :
    ((e.cnt = 0 ∨ e.sym ∈ seen) ∧ loadFault p seen j e = some ⟨.illegalOperand, j⟩) ∨
    (1 ≤ e.cnt ∧ e.sym ∉ seen ∧ (fits p.kMax (j + 1) = false ∨ fits p.cntMax e.cnt = false) ∧
      loadFault p seen j e = some ⟨.capacityExceeded, j⟩) ∨
    (1 ≤ e.cnt ∧ e.sym ∉ seen ∧ fits p.kMax (j + 1) = true ∧ fits p.cntMax e.cnt = true ∧
      loadFault p seen j e = none) := by
  unfold loadFault
  split
  · next h => exact .inl ⟨.inl h, rfl⟩
  · next h =>
    split
    · next h' => exact .inl ⟨.inr (by simpa using h'), rfl⟩
    · next h' =>
      have hs : e.sym ∉ seen := by simpa using h'
      split
      · next h'' =>
        simp only [Bool.and_eq_true] at h''
        exact .inr (.inr ⟨by omega, hs, h''.1, h''.2, rfl⟩)
      · next h'' =>
        refine .inr (.inl ⟨by omega, hs, ?_, rfl⟩)
        cases hk : fits p.kMax (j + 1) <;> cases hc : fits p.cntMax e.cnt <;> simp_all

/-- A trap of FT_LOAD's loop is IllegalOperand or CapacityExceeded (R87, R125). -/
theorem loadLoop_kind {p : Params} {entries : List Entry} {j : Nat} {seen : List Symbol} {trap : Trap}
    (h : loadLoop p entries j seen = some trap) : trap.kind = .illegalOperand ∨ trap.kind = .capacityExceeded := by
  induction entries generalizing j seen with
  | nil => cases h
  | cons e rest ih =>
    simp only [loadLoop] at h
    rcases loadFault_cases p seen j e with ⟨-, hf⟩ | ⟨-, -, -, hf⟩ | ⟨-, -, -, -, hf⟩ <;> simp only [hf] at h
    · cases h; exact .inl rfl
    · cases h; exact .inr rfl
    · exact ih h

/-- The outcomes of FT_LOAD (R87). -/
theorem execFtLoad_cases (entries : List Entry) (s : State) :
    (loadLoop s.params entries 0 [] = none ∧ execFtLoad entries s = .next ({ s with ft := entries }.afterOk 0 [])) ∨
    (∃ trap, loadLoop s.params entries 0 [] = some trap ∧
      execFtLoad entries s = .next ({ s with ft := [] }.afterFault trap.kind trap.info)) := by
  unfold execFtLoad
  cases h : loadLoop s.params entries 0 [] with
  | none => exact .inl ⟨rfl, rfl⟩
  | some trap => exact .inr ⟨trap, rfl, rfl⟩

/-- The outcomes of FT_COUNT (R86). -/
theorem execFtCount_cases (syms : List Symbol) (s : State) :
    (∃ t, countTable s.params syms = .ok t ∧ execFtCount syms s = .next ({ s with ft := t }.afterOk 0 [])) ∨
    (∃ i, i < syms.length ∧ countTable s.params syms = .error ⟨.capacityExceeded, i⟩ ∧
      execFtCount syms s = .next ({ s with ft := [] }.afterFault .capacityExceeded i)) := by
  unfold execFtCount
  cases h : countTable s.params syms with
  | ok t => exact .inl ⟨t, rfl, rfl⟩
  | error trap =>
    obtain ⟨hk, -, hi⟩ := countLoop_error h
    obtain ⟨kind, info⟩ := trap
    obtain rfl : kind = .capacityExceeded := hk
    exact .inr ⟨info, by simpa using hi, rfl, rfl⟩

end Sys2Proof.Machine
end

