-- ==== Sys2Proof/Laws/Exec.lean ====
section
/-! SUPPORT. What exec can do, once for all commands: SYS_RDSR only responds; every other command ends OK, having written at most
its destination, or raises, having cleared it. -/

namespace Sys2Proof.Machine

open Sys2Proof

/-- `s'` is `s` with at most the destination written (R61): what a command that ends OK leaves before it responds. -/
def WritesOnly (d : Dest) (s s' : State) : Prop :=
  match d with
  | .none => s' = s
  | .bitbuf => ∃ bits, s' = s.withBitbuf bits
  | .ft => ∃ ft, s' = s.withFt ft
  | .tree => ∃ t, s' = s.withTree t
  | .allState => s' = s.clear .allState

/-- The inversion lemma of exec. -/
theorem exec_cases (i : Instr) (s : State) :
    (∃ index r, i = .sysRdsr index ∧ exec i s = .next (s.respond r) ∧
      ((∃ v, s.readStatusRegister index = some v ∧ r = ⟨.ok, 0, v, []⟩) ∨
        (s.readStatusRegister index = none ∧ r = ⟨.illegalOperand, index, 0, []⟩))) ∨
    (i.opcode ≠ .SYS_RDSR ∧ ∃ kind info, kind ≠ .ok ∧ destOf i ≠ .allState ∧
      exec i s = .next (s.raise (destOf i) kind info)) ∨
    (i.opcode ≠ .SYS_RDSR ∧ ∃ s' val q, WritesOnly (destOf i) s s' ∧ exec i s = .next (s'.complete val q)) := by
  cases i with
  | sysReset => exact .inr (.inr ⟨by decide, _, _, _, rfl, rfl⟩)
  | sysRdsr index =>
    refine .inl ⟨index, ?_⟩
    cases hv : s.readStatusRegister index with
    | some v => exact ⟨_, rfl, by simp only [exec, execSysRdsr, hv], .inl ⟨v, rfl, rfl⟩⟩
    | none => exact ⟨_, rfl, by simp only [exec, execSysRdsr, hv], .inr ⟨rfl, rfl⟩⟩
  | bbClear => exact .inr (.inr ⟨by decide, _, _, _, ⟨_, rfl⟩, rfl⟩)
  | bbAppend b =>
    rcases execBbAppend_cases b s with ⟨-, h⟩ | ⟨-, h⟩
    · exact .inr (.inl ⟨by simp [Instr.opcode], .capacityExceeded, s.bitbuf.length, by decide, by simp [destOf], h⟩)
    · exact .inr (.inr ⟨by simp [Instr.opcode], s.withBitbuf (s.bitbuf ++ [b]), 0, [], ⟨_, rfl⟩, h⟩)
  | bbLen => exact .inr (.inr ⟨by decide, _, _, _, rfl, rfl⟩)
  | bbPack => exact .inr (.inr ⟨by decide, _, _, _, rfl, rfl⟩)
  | bbUnpack n bytes =>
    rcases execBbUnpack_cases n bytes s with ⟨-, h⟩ | ⟨-, -, h⟩ | ⟨-, -, h⟩
    · exact .inr (.inl ⟨by simp [Instr.opcode], .illegalOperand, bytes.length, by decide, by simp [destOf], h⟩)
    · exact .inr (.inl ⟨by simp [Instr.opcode], .capacityExceeded, n, by decide, by simp [destOf], h⟩)
    · exact .inr (.inr ⟨by simp [Instr.opcode], s.withBitbuf (unpackBits n bytes), 0, [], ⟨_, rfl⟩, h⟩)
  | ftCount syms =>
    rcases execFtCount_cases syms s with ⟨t, -, h⟩ | ⟨j, -, -, h⟩
    · exact .inr (.inr ⟨by simp [Instr.opcode], s.withFt t, 0, [], ⟨_, rfl⟩, h⟩)
    · exact .inr (.inl ⟨by simp [Instr.opcode], .capacityExceeded, j, by decide, by simp [destOf], h⟩)
  | ftLoad entries =>
    rcases execFtLoad_cases entries s with ⟨-, h⟩ | ⟨trap, ht, h⟩
    · exact .inr (.inr ⟨by simp [Instr.opcode], s.withFt entries, 0, [], ⟨_, rfl⟩, h⟩)
    · exact .inr (.inl ⟨by simp [Instr.opcode], trap.kind, trap.info,
        by rcases loadLoop_kind ht with hk | hk <;> simp [hk], by simp [destOf], h⟩)
  | ftRead => exact .inr (.inr ⟨by decide, _, _, _, rfl, rfl⟩)
  | htBuild =>
    rcases execHtBuild_cases s with ⟨t, -, h⟩ | ⟨trap, ht, h⟩
    · exact .inr (.inr ⟨by decide, s.withTree t, 0, [], ⟨_, rfl⟩, h⟩)
    · exact .inr (.inl ⟨by decide, trap.kind, trap.info,
        by rcases buildTree_error ht with ⟨-, hk⟩ | ⟨-, hk, -⟩ <;> simp [hk], by decide, h⟩)
  | htGetcode arg =>
    rcases execHtGetcode_cases arg s with ⟨-, h⟩ | ⟨-, -, h⟩ | ⟨c, -, -, h⟩
    · exact .inr (.inl ⟨by simp [Instr.opcode], .illegalOperand, arg, by decide, by simp [destOf], h⟩)
    · exact .inr (.inl ⟨by simp [Instr.opcode], .unknownSymbol, arg, by decide, by simp [destOf], h⟩)
    · exact .inr (.inr ⟨by simp [Instr.opcode], s, 0, c.map .bit, rfl, h⟩)
  | htDescend h b =>
    simp only [exec, execHtDescend]
    split
    · exact .inr (.inl ⟨by simp [Instr.opcode], .illegalOperand, h, by decide, by simp [destOf], rfl⟩)
    · exact .inr (.inl ⟨by simp [Instr.opcode], .structuralViolation, h, by decide, by simp [destOf], rfl⟩)
    · exact .inr (.inr ⟨by simp [Instr.opcode], s, _, _, rfl, rfl⟩)
  | htIsleaf h =>
    simp only [exec, execHtIsleaf]
    split
    · exact .inr (.inl ⟨by simp [Instr.opcode], .illegalOperand, h, by decide, by simp [destOf], rfl⟩)
    · exact .inr (.inr ⟨by simp [Instr.opcode], s, _, _, rfl, rfl⟩)
  | htNode h =>
    simp only [exec, execHtNode]
    split
    · exact .inr (.inl ⟨by simp [Instr.opcode], .illegalOperand, h, by decide, by simp [destOf], rfl⟩)
    · exact .inr (.inr ⟨by simp [Instr.opcode], s, _, _, rfl, rfl⟩)
  | cdEncode syms =>
    rcases execCdEncode_cases syms s with ⟨out, -, h⟩ | ⟨trap, ht, h⟩
    · exact .inr (.inr ⟨by simp [Instr.opcode], s.withBitbuf out, 0, [], ⟨_, rfl⟩, h⟩)
    · exact .inr (.inl ⟨by simp [Instr.opcode], trap.kind, trap.info,
        by rcases (encodeLoop_error ht).1 with hk | hk <;> simp [hk], by simp [destOf], h⟩)
  | cdDecode =>
    rcases execCdDecode_cases s with ⟨out, -, h⟩ | ⟨trap, ht, h⟩
    · exact .inr (.inr ⟨by decide, s, 0, out.map .sym, rfl, h⟩)
    · exact .inr (.inl ⟨by decide, trap.kind, trap.info,
        by rcases decodeLoop_error ht with hk | hk <;> simp [hk], by decide, h⟩)

end Sys2Proof.Machine
end

