-- ==== Sys2Proof/Laws/PerInstr.lean ====
section
/-! SUPPORT. Statements for all instructions, one lemma per constructor. -/

namespace Sys2Proof.Laws.HeaderSelects

open Sys2Proof

/-- The header of the instruction's encoding selects the instruction's own row of R62, and leaves `ZERO` 0 (R56). -/
def Statement (i : Instr) : Prop := selectOpcode (encode i).hdr = some i.opcode ∧ zeroField (encode i).hdr = 0

theorem sysReset : Statement .sysReset := by constructor <;> decide
theorem sysRdsr (index : Nat) : Statement (.sysRdsr index) :=
  ⟨selectOpcode_headerWord .SYS_RDSR false (by simp), zeroField_headerWord _ _⟩
theorem bbClear : Statement .bbClear := by constructor <;> decide
theorem bbAppend (b : Bit) : Statement (.bbAppend b) :=
  ⟨selectOpcode_headerWord .BB_APPEND b (by simp), zeroField_headerWord _ _⟩
theorem bbLen : Statement .bbLen := by constructor <;> decide
theorem bbPack : Statement .bbPack := by constructor <;> decide
theorem bbUnpack (n : Nat) (bytes : List Byte) : Statement (.bbUnpack n bytes) :=
  ⟨selectOpcode_headerWord .BB_UNPACK false (by simp), zeroField_headerWord _ _⟩
theorem ftCount (syms : List Symbol) : Statement (.ftCount syms) :=
  ⟨selectOpcode_headerWord .FT_COUNT false (by simp), zeroField_headerWord _ _⟩
theorem ftLoad (entries : List Entry) : Statement (.ftLoad entries) :=
  ⟨selectOpcode_headerWord .FT_LOAD false (by simp), zeroField_headerWord _ _⟩
theorem ftRead : Statement .ftRead := by constructor <;> decide
theorem htBuild : Statement .htBuild := by constructor <;> decide
theorem htGetcode (arg : Nat) : Statement (.htGetcode arg) :=
  ⟨selectOpcode_headerWord .HT_GETCODE false (by simp), zeroField_headerWord _ _⟩
theorem htDescend (h : Nat) (b : Bit) : Statement (.htDescend h b) :=
  ⟨selectOpcode_headerWord .HT_DESCEND b (by simp), zeroField_headerWord _ _⟩
theorem htIsleaf (h : Nat) : Statement (.htIsleaf h) :=
  ⟨selectOpcode_headerWord .HT_ISLEAF false (by simp), zeroField_headerWord _ _⟩
theorem htNode (h : Nat) : Statement (.htNode h) :=
  ⟨selectOpcode_headerWord .HT_NODE false (by simp), zeroField_headerWord _ _⟩
theorem cdEncode (syms : List Symbol) : Statement (.cdEncode syms) :=
  ⟨selectOpcode_headerWord .CD_ENCODE false (by simp), zeroField_headerWord _ _⟩
theorem cdDecode : Statement .cdDecode := by constructor <;> decide

end Sys2Proof.Laws.HeaderSelects
end

