-- ==== Sys2Proof/Laws/Step.lean ====
section
/-! SUPPORT. What one step can do. -/

namespace Sys2Proof.Machine

open Sys2Proof

/-- A command: it runs, its header is answered IllegalCommand, or it cannot be written down and is refused. -/
theorem issueCommand_cases (c : Command) (s : State) :
    (∃ i, decode c = .ok i ∧ i.wf s.params = true ∧ issueCommand c s = exec i s) ∨
    (∃ flaw, decode c = .error (.illegalHeader flaw) ∧
      issueCommand c s = .next (s.afterFault .illegalCommand c.hdr.toNat)) ∨
    (¬ Typed s.params c ∧ issueCommand c s = .refused .illTypedPayload) := by
  unfold issueCommand Typed
  cases hd : decode c with
  | error e =>
    cases e with
    | illegalHeader flaw => exact .inr (.inl ⟨flaw, rfl, rfl⟩)
    | illTypedPayload => exact .inr (.inr ⟨id, rfl⟩)
  | ok i =>
    by_cases hw : i.wf s.params = true
    · exact .inl ⟨i, rfl, hw, by simp only [hw, if_true]⟩
    · exact .inr (.inr ⟨hw, by simp [hw]⟩)

/-- If a step answers a next state, the block was idle, or a reset event took place, or an illegal header was answered, or a
well-formed instruction ran. -/
theorem step_next_cases {s t : State} (h : step s = .next t) :
    (s.pending = [] ∧ t = s) ∨
    (∃ e rest, s.pending = e :: rest ∧ (e = .reset ∨ ∃ c, e = .resetDuring c) ∧
      t = { State.resetOf s.params with pending := rest, responses := s.responses }) ∨
    (∃ c rest flaw, s.pending = .command c :: rest ∧ decode c = .error (.illegalHeader flaw) ∧
      t = { s with pending := rest }.afterFault .illegalCommand c.hdr.toNat) ∨
    (∃ c rest i, s.pending = .command c :: rest ∧ decode c = .ok i ∧ i.wf s.params = true ∧
      exec i { s with pending := rest } = .next t) := by
  unfold step at h
  split at h
  · next hp => exact .inl ⟨hp, by simpa using h.symm⟩
  · next e rest hp =>
    cases e with
    | reset => exact .inr (.inl ⟨_, _, hp, .inl rfl, (Host.Outcome.next.inj h).symm⟩)
    | resetDuring c => exact .inr (.inl ⟨_, _, hp, .inr ⟨c, rfl⟩, (Host.Outcome.next.inj h).symm⟩)
    | command c =>
      change issueCommand c (s.withPending rest) = .next t at h
      rcases issueCommand_cases c (s.withPending rest) with ⟨i, hd, hw, hi⟩ | ⟨flaw, hd, hi⟩ | ⟨-, hi⟩
      · exact .inr (.inr (.inr ⟨c, rest, i, hp, hd, hw, hi.symm.trans h⟩))
      · refine .inr (.inr (.inl ⟨c, rest, flaw, hp, hd, ?_⟩))
        exact (Host.Outcome.next.inj (hi.symm.trans h)).symm
      · exact nomatch hi.symm.trans h

end Sys2Proof.Machine
end

