-- ==== Sys2Proof/Tests/Slice0.lean ====
section
/-! SUPPORT. The model's own tests, each one step on a small state with its expected result from spec/95_test_vectors.md or a rule's
example, and a witness for the hypotheses of every statement that has some. -/

namespace Sys2Proof.Tests

open Sys2Proof Sys2Proof.Machine

/-! ## Helpers -/

/-- The next state, if there is one. -/
def after (r : Result) : Option State :=
  match r with
  | .next t => some t
  | _ => none

/-- The last response after running an instruction. -/
def answer (i : Instr) (s : State) : Option Response := (after (exec i s)).bind (·.responses.getLast?)

/-- V2's table: FT_COUNT of the bytes 0x41, 0x41, 0x42. -/
def tableAB : List Entry := [⟨0x41, 2⟩, ⟨0x42, 1⟩]

/-- V2's tree: `[Leaf(0x41,2), Leaf(0x42,1), Internal(1,0,3)]`, `ROOT = 2`. -/
def treeAB : CodeTree := ⟨[.leaf 0x41 2, .leaf 0x42 1, .internal 1 0 3], some 2⟩

/-- V9's tree of three equal counts: codes 0x41 `10`, 0x42 `11`, 0x43 `0`. -/
def treeABC : CodeTree :=
  ⟨[.leaf 0x41 1, .leaf 0x42 1, .leaf 0x43 1, .internal 0 1 2, .internal 2 3 3], some 4⟩

/-- The end state of P1: V2's table and tree, and the buffer `110`. -/
def stAB : State := { State.reset with ft := tableAB, tree := treeAB, bitbuf := [true, true, false] }

/-- A block whose capacities are all `m`. -/
def bounded (m : Nat) : State := State.resetOf ⟨8, some m, some m, some m⟩

/-- `s` with one command waiting. -/
def offered (c : Command) (s : State) : State := { s with pending := [.command c] }

/-! ## WellFormed: each check refuses an ill-formed term (R58) -/

theorem test_wf_refuses_count_symbol : Instr.wf Params.byteUnbounded (.ftCount [0x41, 256]) = false := by decide
theorem test_wf_refuses_load_symbol : Instr.wf Params.byteUnbounded (.ftLoad [⟨0x41, 1⟩, ⟨256, 1⟩]) = false := by decide
theorem test_wf_refuses_encode_symbol : Instr.wf Params.byteUnbounded (.cdEncode [256]) = false := by decide
theorem test_wf_accepts_bytes : Instr.wf Params.byteUnbounded (.ftCount [0, 255]) = true := by decide

/-- A step refuses what R58 says cannot be written down: a byte where a symbol is due, and a symbol of no byte. -/
theorem test_step_refuses_ill_typed :
    (∃ r, step (offered ⟨0x20#32, 0, [.byte 0x41]⟩ State.reset) = .refused r) ∧
    (∃ r, step (offered ⟨0x40#32, 0, [.sym 256]⟩ State.reset) = .refused r) := ⟨⟨_, rfl⟩, ⟨_, rfl⟩⟩

/-! ## Decode: every header of R62, written out, and the illegal ones of V13 -/

theorem test_decode_system :
    decode ⟨0x00000001#32, 7, [.bit true]⟩ = .ok .sysReset ∧ decode ⟨0x00000002#32, 5, []⟩ = .ok (.sysRdsr 5) := by decide
theorem test_decode_bitbuffer :
    decode ⟨0x00000010#32, 0, []⟩ = .ok .bbClear ∧ decode ⟨0x00000011#32, 0, []⟩ = .ok (.bbAppend false) ∧
    decode ⟨0x00000111#32, 0, []⟩ = .ok (.bbAppend true) ∧ decode ⟨0x00000012#32, 0, []⟩ = .ok .bbLen ∧
    decode ⟨0x00000013#32, 0, []⟩ = .ok .bbPack ∧
    decode ⟨0x00000014#32, 9, [.byte 0x8D, .byte 0x01]⟩ = .ok (.bbUnpack 9 [0x8D, 0x01]) := by decide
theorem test_decode_freqtable :
    decode ⟨0x00000020#32, 0, [.sym 0x41, .sym 0x42]⟩ = .ok (.ftCount [0x41, 0x42]) ∧
    decode ⟨0x00000021#32, 0, [.entry ⟨0x41, 2⟩]⟩ = .ok (.ftLoad [⟨0x41, 2⟩]) ∧
    decode ⟨0x00000022#32, 0, []⟩ = .ok .ftRead := by decide
theorem test_decode_hufftree :
    decode ⟨0x00000030#32, 0, []⟩ = .ok .htBuild ∧ decode ⟨0x00000031#32, 0x41, []⟩ = .ok (.htGetcode 0x41) ∧
    decode ⟨0x00000032#32, 9, []⟩ = .ok (.htDescend 9 false) ∧ decode ⟨0x00000132#32, 9, []⟩ = .ok (.htDescend 9 true) ∧
    decode ⟨0x00000033#32, 2, []⟩ = .ok (.htIsleaf 2) ∧ decode ⟨0x00000034#32, 2, []⟩ = .ok (.htNode 2) := by decide
theorem test_decode_codec :
    decode ⟨0x00000040#32, 0, [.sym 0x41]⟩ = .ok (.cdEncode [0x41]) ∧ decode ⟨0x00000041#32, 0, []⟩ = .ok .cdDecode := by
  decide
theorem test_decode_illegal :
    decode ⟨0x00000000#32, 0, []⟩ = .error (.illegalHeader .unknownOpcode) ∧
    decode ⟨0x00000110#32, 0, []⟩ = .error (.illegalHeader .strayB) ∧
    decode ⟨0x00000211#32, 0, []⟩ = .error (.illegalHeader .reservedBits) ∧
    decode ⟨0x80000001#32, 0, []⟩ = .error (.illegalHeader .reservedBits) ∧
    decode ⟨0x00000015#32, 0, []⟩ = .error (.illegalHeader .unknownOpcode) := by decide
theorem test_decodeTableWord :
    decodeTableWord 32 0x132 = some (.htDescend 0 true) ∧ decodeTableWord 32 0 = none ∧
    decodeTableWord 64 0x100000041 = none := by decide
theorem test_withFetchWord_runs : step (State.reset.withFetchWord 32 0x12) = exec .bbLen State.reset := rfl
theorem test_assemble_descend : (AsmLine.mk .HT_DESCEND [.num 2, .num 1]).assemble = some ⟨0x132#32, 2, []⟩ := by decide
/-- P4 command 11: the header 0x99. -/
theorem test_illegal_header_answer :
    ((after (step (offered ⟨0x99#32, 0, []⟩ stAB))).map fun t => (t.status.code, t.errinfo, t.bitbuf)) =
      some (6, 0x99, [true, true, false]) := by decide

/-! ## System -/

/-- R121: after any history every register reads 0. -/
theorem test_sysReset : (after (exec .sysReset stAB)).map (fun t => (t.ft, t.tree, t.bitbuf)) = some ([], CodeTree.empty, []) := by
  decide
/-- V10: `SYS_RDSR ROOT` on V2's tree (P1: ROOT = 2). -/
theorem test_sysRdsr_root : answer (.sysRdsr 5) stAB = some ⟨.ok, 0, 2, []⟩ := by decide
/-- V13: `SYS_RDSR 6` leaves `STATUS` and `ERRINFO`. -/
theorem test_sysRdsr_6 :
    ((after (exec (.sysRdsr 6) { stAB with status := .truncated, errinfo := 8 })).map fun t =>
      (t.status, t.errinfo, t.responses)) = some (.truncated, 8, [⟨.illegalOperand, 6, 0, []⟩]) := by decide

/-! ## BitBuffer -/

theorem test_bbClear : (after (exec .bbClear stAB)).map (·.bitbuf) = some [] := by decide
/-- R77's example. -/
theorem test_bbAppend : (after (exec (.bbAppend false) { stAB with bitbuf := [true, true] })).map (·.bitbuf) =
    some [true, true, false] := by decide
/-- V7: `BITS_MAX = 2`. -/
theorem test_bbAppend_full : (after (exec (.bbAppend false) { bounded 2 with bitbuf := [true, true] })).map
    (fun t => (t.bitbuf, t.status, t.errinfo)) = some ([], .capacityExceeded, 2) := by decide
theorem test_bbLen : answer .bbLen stAB = some ⟨.ok, 0, 3, []⟩ := by decide
/-- V6: `101100011` packs to 0x8D, 0x01. -/
theorem test_bbPack : answer .bbPack { stAB with bitbuf := [true, false, true, true, false, false, false, true, true] } =
    some ⟨.ok, 0, 0, [.byte 0x8D, .byte 0x01]⟩ := by decide
/-- V6: eighth bit most significant, no padding. -/
theorem test_bbPack_msb : answer .bbPack
    { stAB with bitbuf := [false, false, false, false, false, false, false, true] } = some ⟨.ok, 0, 0, [.byte 0x80]⟩ := by decide
/-- V6: non-zero padding and further bytes are ignored. -/
theorem test_bbUnpack : (after (exec (.bbUnpack 3 [0xFB, 0x77]) stAB)).map (·.bitbuf) = some [true, true, false] := by decide
/-- V6: IllegalOperand is tested before CapacityExceeded. -/
theorem test_bbUnpack_priority :
    answer (.bbUnpack 9 [0xFF]) (bounded 8) = some ⟨.illegalOperand, 1, 0, []⟩ ∧
    answer (.bbUnpack 9 [0xFF, 0x01]) (bounded 8) = some ⟨.capacityExceeded, 9, 0, []⟩ := by decide

/-! ## FrequencyTable -/

/-- V8: order of first occurrence. -/
theorem test_ftCount : (after (exec (.ftCount [0x42, 0x41, 0x41]) stAB)).map (·.ft) = some [⟨0x42, 1⟩, ⟨0x41, 2⟩] := by decide
/-- V8: `K_MAX = 2`, and `CNT_MAX = 3`. -/
theorem test_ftCount_full :
    answer (.ftCount [97, 98, 99]) (State.resetOf ⟨8, some 2, none, none⟩) = some ⟨.capacityExceeded, 2, 0, []⟩ ∧
    answer (.ftCount [97, 97, 97, 97]) (State.resetOf ⟨8, none, some 3, none⟩) = some ⟨.capacityExceeded, 3, 0, []⟩ := by decide
/-- R86, R131, R31: a count of 1 passes `CNT_MAX = 0`, and the empty input needs no count. -/
theorem test_ftCount_no_count :
    answer (.ftCount [97]) (bounded 0) = some ⟨.capacityExceeded, 0, 0, []⟩ ∧
    answer (.ftCount [97]) (State.resetOf ⟨8, none, some 0, none⟩) = some ⟨.capacityExceeded, 0, 0, []⟩ ∧
    answer (.ftCount []) (bounded 0) = some ⟨.ok, 0, 0, []⟩ := by decide
/-- V8: a repeated symbol at index 2. -/
theorem test_ftLoad_duplicate : (after (exec (.ftLoad [⟨0x41, 2⟩, ⟨0x42, 1⟩, ⟨0x41, 5⟩]) stAB)).map
    (fun t => (t.ft, t.status, t.errinfo)) = some ([], .illegalOperand, 2) := by decide
/-- V8: a count above `CNT_MAX = 8`; a zero count at index 1. -/
theorem test_ftLoad_faults :
    answer (.ftLoad [⟨0x41, 9⟩]) (bounded 8) = some ⟨.capacityExceeded, 0, 0, []⟩ ∧
    answer (.ftLoad [⟨0x41, 2⟩, ⟨0x42, 0⟩]) stAB = some ⟨.illegalOperand, 1, 0, []⟩ := by decide
theorem test_ftRead : answer .ftRead stAB = some ⟨.ok, 0, 0, [.entry ⟨0x41, 2⟩, .entry ⟨0x42, 1⟩]⟩ := by decide

/-! ## HuffmanTree -/

/-- V9: `[('a',2), ('b',2), ('c',1)]` merges 2,0 into 3(3) and 1,3 into 4(5): entry 0 before entry 1 in the tie. -/
theorem test_htBuild_tie :
    (after (exec .htBuild { stAB with ft := [⟨97, 2⟩, ⟨98, 2⟩, ⟨99, 1⟩] })).map (·.tree) =
      some ⟨[.leaf 97 2, .leaf 98 2, .leaf 99 1, .internal 2 0 3, .internal 1 3 5], some 4⟩ := by decide
/-- V9: `[('a',2), ('b',2)]` with `CNT_MAX = 3`, and the one-entry table. -/
theorem test_htBuild_faults :
    answer .htBuild { bounded 3 with ft := [⟨97, 2⟩, ⟨98, 2⟩] } = some ⟨.capacityExceeded, 2, 0, []⟩ ∧
    (after (exec .htBuild { stAB with ft := [⟨0x41, 4⟩] })).map (fun t => (t.tree, t.status, t.errinfo)) =
      some (CodeTree.empty, .degenerateAlphabet, 0) := by decide
/-- R101's examples. -/
theorem test_htGetcode :
    answer (.htGetcode 0x41) stAB = some ⟨.ok, 0, 0, [.bit true]⟩ ∧
    answer (.htGetcode 0x43) stAB = some ⟨.unknownSymbol, 0x43, 0, []⟩ ∧
    answer (.htGetcode 256) State.reset = some ⟨.illegalOperand, 256, 0, []⟩ := by decide
/-- V9: the code of 0x42 in the tree of three equal counts is `11`. -/
theorem test_htGetcode_path : answer (.htGetcode 0x42) { stAB with tree := treeABC } =
    some ⟨.ok, 0, 0, [.bit true, .bit true]⟩ := by decide
/-- R102's examples. -/
theorem test_htDescend :
    answer (.htDescend 2 true) stAB = some ⟨.ok, 0, 0, []⟩ ∧ answer (.htDescend 2 false) stAB = some ⟨.ok, 0, 1, []⟩ ∧
    answer (.htDescend 0 false) stAB = some ⟨.structuralViolation, 0, 0, []⟩ ∧
    answer (.htDescend 3 false) stAB = some ⟨.illegalOperand, 3, 0, []⟩ := by decide
/-- R103's examples. -/
theorem test_htIsleaf :
    answer (.htIsleaf 2) stAB = some ⟨.ok, 0, 0, []⟩ ∧ answer (.htIsleaf 1) stAB = some ⟨.ok, 0, 1, []⟩ := by decide
/-- R104's examples. -/
theorem test_htNode :
    answer (.htNode 2) stAB = some ⟨.ok, 0, 3, [.handle 1, .handle 0]⟩ ∧
    answer (.htNode 0) stAB = some ⟨.ok, 0, 2, [.sym 0x41]⟩ := by decide

/-! ## Codec -/

/-- R111's example; the old buffer is replaced. -/
theorem test_cdEncode : (after (exec (.cdEncode [0x41, 0x41, 0x42]) stAB)).map (·.bitbuf) = some [true, true, false] := by decide
/-- V4: an unknown symbol at index 1 leaves the buffer empty. -/
theorem test_cdEncode_unknown : (after (exec (.cdEncode [0x41, 0x43]) stAB)).map (fun t => (t.bitbuf, t.status, t.errinfo)) =
    some ([], .unknownSymbol, 1) := by decide
/-- R117's example, and V12's stream of padding zeros. -/
theorem test_cdDecode :
    answer .cdDecode stAB = some ⟨.ok, 0, 0, [.sym 0x41, .sym 0x41, .sym 0x42]⟩ ∧
    answer .cdDecode { stAB with bitbuf := [true, true, false, false] } =
      some ⟨.ok, 0, 0, [.sym 0x41, .sym 0x41, .sym 0x42, .sym 0x42]⟩ := by decide
/-- V12: the bits end inside a code (`0` then `1`), and bits against the empty tree. -/
theorem test_cdDecode_faults :
    answer .cdDecode { stAB with tree := treeABC, bitbuf := [false, true] } = some ⟨.truncated, 1, 0, []⟩ ∧
    answer .cdDecode { State.reset with bitbuf := [false] } = some ⟨.structuralViolation, 0, 0, []⟩ := by decide

/-! ## Pseudo-instructions (P1, P2) -/

theorem test_compress_stops : (after (runPseudo (.compress [0x41]) State.reset)).map (fun t => (t.status, t.responses.length)) =
    some (.degenerateAlphabet, 2) := by decide
theorem test_expand : ((after (runPseudo (.expand tableAB 3 [0x03]) State.reset)).bind (·.responses.getLast?)) =
    some ⟨.ok, 0, 0, [.sym 0x41, .sym 0x41, .sym 0x42]⟩ := by decide

/-! ## Witnesses: concrete states and operands that meet the hypotheses of each statement -/

theorem tableAB_inv : FtInv (bounded 3).params tableAB :=
  { distinct := by decide, positive := by decide, countFits := by decide, lengthFits := by decide }
theorem treeAB_built (p : Option Nat) (hp : fits p 3 = true) (hp' : fits p 2 = true) (hp'' : fits p 1 = true) :
    treeAB.Built p 2 :=
  { twoEntries := by decide, count := by decide, rootLast := by decide, leaves := by decide, distinct := by decide,
    internals := by decide, oneParent := by decide, rootNoParent := by decide, positive := by decide,
    freqFits := by simp [treeAB, Node.freq, hp, hp', hp''], rootSum := by decide }
theorem treeABC_built : treeABC.Built none 3 :=
  { twoEntries := by decide, count := by decide, rootLast := by decide, leaves := by decide, distinct := by decide,
    internals := by decide, oneParent := by decide, rootNoParent := by decide, positive := by decide,
    freqFits := by decide, rootSum := by decide }
theorem treeAB_codes : treeAB.IsCode 0x41 [true] ∧ treeAB.IsCode 0x42 [false] :=
  ⟨⟨2, 0, by decide⟩, ⟨2, 1, by decide⟩⟩
theorem treeABC_codes : treeABC.IsCode 0x43 [false] ∧ treeABC.IsCode 0x41 [true, false] :=
  ⟨⟨4, 2, by decide⟩, ⟨4, 0, by decide⟩⟩
theorem stAB_tree_inv : TreeInv stAB.params.cntMax stAB.tree := .inr ⟨2, treeAB_built none rfl rfl rfl⟩

/-- For the second part of DecodeAndEncodeAgree: a command whose unused operands are not those of the encoding. -/
theorem witness_DecodeAndEncodeAgree :
    decode ⟨0x31#32, 0x41, [.bit true]⟩ = .ok (.htGetcode 0x41) ∧
    Instr.opcode (.htGetcode 0x41) ∈ [Opcode.SYS_RDSR, .BB_UNPACK, .HT_GETCODE, .HT_DESCEND, .HT_ISLEAF, .HT_NODE] ∧
    decode ⟨0x21#32, 5, [.entry ⟨0x41, 0⟩]⟩ = .ok (.ftLoad [⟨0x41, 0⟩]) ∧
    Instr.opcode (.ftLoad [⟨0x41, 0⟩]) ∈ [Opcode.BB_UNPACK, .FT_COUNT, .FT_LOAD, .CD_ENCODE] := by decide
theorem witness_IllegalHeaderIsAnsweredIllegalCommand :
    (offered ⟨0x141#32, 0, []⟩ stAB).pending = .command ⟨0x141#32, 0, []⟩ :: [] ∧
    IllegalHeader 0x141#32 ∧ IllegalHeader 0x15#32 ∧ IllegalHeader 0x211#32 := by
  refine ⟨rfl, .inr (.inr (by decide)), .inl (by decide), .inr (.inl (by decide))⟩
theorem witness_NoHeaderSelectsTwoRows :
    ∃ (w : HeaderWord) (r : OpcodeRow), r ∈ opcodeTable ∧ r.selects w = true :=
  ⟨0x111#32, ⟨.BB_APPEND, 0x11#32, 0xFFFFFEFF#32⟩, by decide, by decide⟩
theorem witness_StepRunsTheDecodedInstruction :
    (offered ⟨0x20#32, 0, [.sym 255]⟩ stAB).pending = .command ⟨0x20#32, 0, [.sym 255]⟩ :: [] ∧
    decode ⟨0x20#32, 0, [.sym 255]⟩ = .ok (.ftCount [255]) ∧ Instr.wf stAB.params (.ftCount [255]) = true := by decide
theorem witness_NothingButACommandOrResetChangesTheState :
    stAB.pending = [] ∧ ∃ s : State, s.pending = .resetDuring ⟨0x30#32, 0, []⟩ :: [.reset] :=
  ⟨rfl, { stAB with pending := [.resetDuring ⟨0x30#32, 0, []⟩, .reset] }, rfl⟩
theorem witness_EveryTypedCommandIsAnsweredOnce :
    (offered ⟨0x141#32, 0, []⟩ stAB).pending = .command ⟨0x141#32, 0, []⟩ :: [] ∧
    Typed stAB.params ⟨0x141#32, 0, []⟩ ∧ Typed stAB.params ⟨0x40#32, 0, [.sym 255]⟩ :=
  ⟨rfl, trivial, (by decide : Instr.wf stAB.params (.cdEncode [255]) = true)⟩
theorem witness_ResetLeavesEverythingEmptyOrZero :
    (∃ t, exec .sysReset stAB = .next t) ∧
    ∃ s t : State, s.tree = treeAB ∧ s.pending = .reset :: [.command ⟨0x12#32, 0, []⟩] ∧ step s = .next t :=
  ⟨⟨_, rfl⟩, { stAB with pending := [.reset, .command ⟨0x12#32, 0, []⟩] }, _, rfl, rfl, rfl⟩
theorem witness_EveryStepKeepsTheInvariants :
    ∃ s t : State, s.Inv ∧ s.tree = treeAB ∧ step s = .next t := by
  refine ⟨offered ⟨0x13#32, 0, []⟩ stAB, _, ⟨?_, by decide, stAB_tree_inv, ⟨by decide, by decide⟩, fun _ => rfl⟩, rfl,
    rfl⟩
  exact { distinct := by decide, positive := by decide, countFits := by decide, lengthFits := by decide }
theorem witness_UnboundedBlockNeverExceedsCapacity :
    stAB.params.kMax = none ∧ stAB.params.cntMax = none ∧ stAB.params.bitsMax = none := by decide
/-- For EveryCommandChangesOnlyWhatItMayWrite, ResponseCarriesOnlyTheResultsOfItsCommand and FaultClearsTheDestinationAndNothingElse:
each destination has a command that faults. -/
theorem witness_FaultsByCommand :
    (∃ r, answer (.sysRdsr 6) stAB = some r ∧ r.st ≠ .ok) ∧ (∃ r, answer (.cdEncode [0x43]) stAB = some r ∧ r.st ≠ .ok) ∧
    (∃ r, answer (.ftLoad [⟨0x41, 0⟩]) stAB = some r ∧ r.st ≠ .ok) ∧
    (∃ r, answer .htBuild { stAB with ft := [⟨0x41, 4⟩] } = some r ∧ r.st ≠ .ok) ∧
    (∃ r, answer (.htNode 3) stAB = some r ∧ r.st ≠ .ok) := by
  refine ⟨⟨_, rfl, ?_⟩, ⟨_, rfl, ?_⟩, ⟨_, rfl, ?_⟩, ⟨_, rfl, ?_⟩, ⟨_, rfl, ?_⟩⟩ <;> decide
/-- Each status a command can end with is answered by one (IllegalCommand is the header's). -/
theorem witness_EachStatusIsRaisedOnlyByTheCommandsOfItsRow :
    (answer (.cdEncode [0x43]) stAB).map (·.st) = some .unknownSymbol ∧
    (answer .cdDecode { stAB with tree := treeABC, bitbuf := [true] }).map (·.st) = some .truncated ∧
    (answer .cdDecode { stAB with tree := CodeTree.empty }).map (·.st) = some .structuralViolation ∧
    (answer .htBuild { stAB with ft := [⟨0x41, 4⟩] }).map (·.st) = some .degenerateAlphabet ∧
    (answer (.bbAppend true) { bounded 1 with bitbuf := [true] }).map (·.st) = some .capacityExceeded ∧
    (answer (.bbUnpack 1 []) stAB).map (·.st) = some .illegalOperand := by decide
theorem witness_RepeatedFailureGivesTheSameResponse :
    Instr.opcode (.cdEncode [0x43]) ≠ .BB_APPEND ∧
    (answer (.cdEncode [0x43]) stAB).map (·.st) = some .unknownSymbol := by decide
theorem witness_ReadingTwiceGivesTheSameResponse :
    Instr.opcode .cdDecode ∈ [Opcode.BB_LEN, .BB_PACK, .FT_READ, .HT_GETCODE, .HT_DESCEND, .HT_ISLEAF, .HT_NODE, .CD_DECODE] := by
  decide
theorem witness_SysRdsrReadsTheStatusRegisters :
    [stAB.status.code, stAB.errinfo, stAB.bitbuf.length, stAB.ft.length, stAB.tree.node.length,
      stAB.tree.root.getD stAB.tree.node.length][5]? = some 2 ∧ 5 < 6 := by decide
theorem witness_BbAppendAppendsOneBitOrFaults :
    (bounded 2).params.bitsMax ≠ some ({ bounded 2 with bitbuf := [true] } : State).bitbuf.length ∧
    (bounded 2).params.bitsMax = some ({ bounded 2 with bitbuf := [true, true] } : State).bitbuf.length := by decide
theorem witness_BbUnpackLoadsExactlyTheBitsOrFaults :
    ([0xFF] : List Byte).length < (9 + 7) / 8 ∧ (8 + 7) / 8 ≤ ([0xFF] : List Byte).length ∧
    (∃ m, (bounded 7).params.bitsMax = some m ∧ m < 8) ∧ (∀ m, (bounded 8).params.bitsMax = some m → 8 ≤ m) :=
  ⟨by decide, by decide, ⟨7, rfl, by decide⟩, fun m h => by simp [bounded, State.resetOf] at h; omega⟩
theorem witness_PackAndUnpackAreInverseUpToPadding :
    fits (bounded 3).params.bitsMax stAB.bitbuf.length = true ∧ (3 + 7) / 8 ≤ ([0xFB] : List Byte).length ∧
    fits (bounded 3).params.bitsMax 3 = true := by decide
theorem witness_PackedBytesDoNotTellTheBitCount : stAB.bitbuf.length % 8 ≠ 0 := by decide
theorem witness_FtCountCountsInOrderOfFirstOccurrence :
    fits (bounded 2).params.kMax ([0x41, 0x41, 0x42] : List Symbol).dedup.length = true ∧
    ∀ x ∈ ([0x41, 0x41, 0x42] : List Symbol), fits (bounded 2).params.cntMax (([0x41, 0x41, 0x42] : List Symbol).count x) = true := by
  decide
theorem witness_FtCountFaultsAtTheFirstSymbolThatDoesNotFit :
    fits (bounded 2).params.kMax ([0x41, 0x41, 0x42] : List Symbol).dedup.length = true ∧
    (∀ y ∈ ([0x41, 0x41, 0x42] : List Symbol), fits (bounded 2).params.cntMax (([0x41, 0x41, 0x42] : List Symbol).count y) = true) ∧
    (bounded 2).params.cntMax = some (([0x41, 0x41, 0x42] : List Symbol).count 0x41) ∧
    ((0x43 : Symbol) ∉ ([0x41, 0x41, 0x42] : List Symbol) ∧
      (bounded 2).params.kMax = some ([0x41, 0x41, 0x42] : List Symbol).dedup.length) ∧
    (bounded 0).params.cntMax = some (([] : List Symbol).count 0x41) := by decide
theorem witness_FtLoadLoadsATableThatMeetsTheInvariant : FtInv (bounded 3).params tableAB := tableAB_inv
theorem witness_FtLoadFaultsAtTheFirstBadEntry :
    FtInv (bounded 3).params tableAB ∧ (0x41 : Symbol) ∈ tableAB.map (·.sym) ∧ (0x44 : Symbol) ∉ tableAB.map (·.sym) ∧
    fits (bounded 3).params.cntMax 4 = false ∧ FtInv (bounded 2).params tableAB ∧
    fits (bounded 2).params.kMax (tableAB.length + 1) = false :=
  ⟨tableAB_inv, by decide, by decide, by decide,
    { distinct := by decide, positive := by decide, countFits := by decide, lengthFits := by decide }, by decide⟩
theorem witness_HtBuildOfFewerThanTwoEntries :
    State.reset.ft.length = 0 ∧ ({ stAB with ft := [⟨0x41, 4⟩] } : State).ft.length = 1 := by decide
theorem witness_HtBuildBuildsAStrictBinaryTree :
    FtInv (bounded 3).params tableAB ∧ 2 ≤ tableAB.length ∧ fits (bounded 3).params.cntMax (tableAB.map (·.cnt)).sum = true :=
  ⟨tableAB_inv, by decide, by decide⟩
theorem witness_EveryMergeTakesTheTwoLeastCandidates :
    ∃ t, exec .htBuild stAB = .next t ∧ t.status = .ok ∧ t.tree.node[2]? = some (.internal 1 0 3) ∧
      stAB.ft.length ≤ 2 := ⟨_, rfl, by decide⟩
theorem witness_MergeFrequenciesDoNotDecrease :
    ∃ t, exec .htBuild { stAB with ft := [⟨97, 2⟩, ⟨98, 2⟩, ⟨99, 1⟩] } = .next t ∧ t.status = .ok ∧
      3 ≤ 3 ∧ 3 + 1 < t.tree.node.length ∧ t.tree.candidateAt 3 1 :=
  ⟨_, rfl, by decide, by decide, by decide, by decide, by
    intro h' hh l r f hn
    match h', hh with
    | 0, _ => cases hn
    | 1, _ => cases hn
    | 2, _ => cases hn⟩
theorem witness_HtBuildFaultsAtTheFirstFrequencyTooLarge :
    ∃ u : State, 2 ≤ tableAB.length ∧
      exec .htBuild { bounded 2 with ft := tableAB, params := { (bounded 2).params with cntMax := none } } = .next u ∧
      tableAB.length ≤ 2 ∧ 2 < u.tree.node.length ∧ fits (bounded 2).params.cntMax (freqAt u.tree.node 2) = false :=
  ⟨_, by decide, rfl, by decide, by decide, by decide⟩
theorem witness_TableAndTreeDependOnTheirInputsAlone :
    stAB.params = State.reset.params ∧ stAB.ft = ({ bounded 9 with ft := tableAB } : State).ft ∧
    (bounded 9).params.cntMax = ({ bounded 9 with tree := treeAB } : State).params.cntMax := by decide
theorem witness_HtGetcodeAnswersTheOnePathToTheLeaf :
    TreeInv stAB.params.cntMax stAB.tree ∧ 0x41 < 2 ^ stAB.params.symW ∧ 0x41 ∈ stAB.tree.symbols ∧
    255 < 2 ^ stAB.params.symW ∧ 255 ∉ stAB.tree.symbols ∧ 2 ^ stAB.params.symW ≤ 256 :=
  ⟨stAB_tree_inv, by decide, by decide, by decide, by decide, by decide⟩
/-- For HtDescendAnswersTheChild, HtIsleafTellsLeavesFromInternalNodes and HtNodeAnswersTheNode. -/
theorem witness_NodesOfEveryKind :
    stAB.tree.node[2]? = some (.internal 1 0 3) ∧ stAB.tree.node[0]? = some (.leaf 0x41 2) ∧
    stAB.tree.node.length ≤ 3 ∧ stAB.tree.Built stAB.params.cntMax 2 ∧ 2 < stAB.tree.node.length :=
  ⟨by decide, by decide, by decide, treeAB_built none rfl rfl rfl, by decide⟩
theorem witness_CodesOfABuiltTreeArePrefixFree :
    treeABC.Built none 3 ∧ treeABC.IsCode 0x43 [false] ∧ treeABC.IsCode 0x41 [true, false] ∧ (0x43 : Symbol) ≠ 0x41 :=
  ⟨treeABC_built, treeABC_codes.1, treeABC_codes.2, by decide⟩
theorem witness_CodeLengthsAreBetweenOneAndEntriesLessOne :
    treeABC.Built none 3 ∧ 0x41 ∈ treeABC.symbols ∧ treeABC.IsCode 0x43 [false] ∧ treeABC.IsCode 0x41 [true, false] :=
  ⟨treeABC_built, by decide, treeABC_codes.1, treeABC_codes.2⟩
theorem witness_CdEncodeConcatenatesTheCodes :
    TreeInv stAB.params.cntMax stAB.tree ∧ List.Forall₂ stAB.tree.IsCode [0x41, 0x42] [[true], [false]] ∧
    fits (bounded 2).params.bitsMax ([[true], [false]] : List (List Bit)).flatten.length = true :=
  ⟨stAB_tree_inv, .cons treeAB_codes.1 (.cons treeAB_codes.2 .nil), by decide⟩
theorem witness_CdEncodeFaultsAtTheFirstSymbolThatFails :
    TreeInv (bounded 3).params.cntMax treeAB ∧ List.Forall₂ treeAB.IsCode [0x41, 0x42, 0x42] [[true], [false], [false]] ∧
    fits (bounded 3).params.bitsMax ([[true], [false], [false]] : List (List Bit)).flatten.length = true ∧
    0x43 ∉ treeAB.symbols ∧ treeAB.IsCode 0x41 [true] ∧
    fits (bounded 3).params.bitsMax (([[true], [false], [false]] : List (List Bit)).flatten.length + [true].length) = false :=
  ⟨.inr ⟨2, treeAB_built _ (by decide) (by decide) (by decide)⟩,
    .cons treeAB_codes.1 (.cons treeAB_codes.2 (.cons treeAB_codes.2 .nil)), by decide, by decide, treeAB_codes.1, by decide⟩
theorem witness_CdDecodeOfCodesAnswersTheirSymbols :
    TreeInv stAB.params.cntMax stAB.tree ∧
    List.Forall₂ stAB.tree.IsCode [0x41, 0x41, 0x42] [[true], [true], [false]] ∧
    stAB.bitbuf = ([[true], [true], [false]] : List (List Bit)).flatten :=
  ⟨stAB_tree_inv, .cons treeAB_codes.1 (.cons treeAB_codes.1 (.cons treeAB_codes.2 .nil)), by decide⟩
theorem witness_CdDecodeFaultsInsideACodeOrOnTheEmptyTree :
    TreeInv none treeABC ∧ List.Forall₂ treeABC.IsCode [0x43] [[false]] ∧
    ([false, true] : List Bit) = ([[false]] : List (List Bit)).flatten ++ [true] ∧ ([true] : List Bit) ≠ [] ∧
    treeABC.root = some 4 ∧ treeABC.walk 4 [true] = some 3 ∧ treeABC.isLeafAt 3 = false ∧
    TreeInv none State.reset.tree ∧ ({ State.reset with bitbuf := [false] } : State).bitbuf ≠ [] :=
  ⟨.inr ⟨3, treeABC_built⟩, .cons treeABC_codes.1 .nil, by decide, by decide, by decide, by decide, by decide, .inl rfl, by decide⟩
/-- For CdDecodeOnABuiltTreeNeverViolatesItsStructure and DecodedLengthIsBoundedByTheBits. -/
theorem witness_CdDecodeOnABuiltTree : stAB.tree.Built stAB.params.cntMax 2 := treeAB_built none rfl rfl rfl
theorem witness_PaddingZerosDecodeAsTheLeftmostSymbol :
    let t : CodeTree := ⟨[.leaf 97 1, .leaf 98 1, .leaf 99 1, .leaf 100 1, .internal 0 1 2, .internal 2 3 2, .internal 4 5 4], some 6⟩
    t.Built none 4 ∧ t.IsCode 97 (List.replicate 2 false) ∧ List.Forall₂ t.IsCode [98] [[false, true]] ∧
    3 % 2 ≠ 0 ∧ 2 % 2 = 0 := by
  refine ⟨?_, ⟨6, 0, by decide⟩, .cons ⟨6, 1, by decide⟩ .nil, by decide, by decide⟩
  exact { twoEntries := by decide, count := by decide, rootLast := by decide, leaves := by decide, distinct := by decide,
          internals := by decide, oneParent := by decide, rootNoParent := by decide, positive := by decide,
          freqFits := by decide, rootSum := by decide }
theorem witness_CountBuildEncodeDecodeReturnsTheInput :
    2 ≤ ([0x41, 0x41, 0x42] : List Symbol).dedup.length ∧
    fits (bounded 3).params.kMax ([0x41, 0x41, 0x42] : List Symbol).dedup.length = true ∧
    fits (bounded 3).params.cntMax ([0x41, 0x41, 0x42] : List Symbol).length = true ∧
    fits (bounded 3).params.bitsMax
      (([0x41, 0x41, 0x42] : List Symbol).map fun x => ((codeOf treeAB x).getD []).length).sum = true ∧
    fits (bounded 1).params.kMax 1 = true ∧ fits (bounded 1).params.cntMax (0 + 1) = true := by decide
theorem witness_SequenceStopsAtTheFirstFailure :
    ∃ t u v, runSequence [.bbClear] stAB = .next t ∧ t.lastStatus = some .ok ∧
      (exec (.htNode 3) t = .next u ∧ u.lastStatus ≠ some .ok) ∧ (exec .bbLen t = .next v ∧ v.lastStatus = some .ok) :=
  ⟨_, _, _, rfl, by decide, ⟨rfl, by decide⟩, ⟨rfl, by decide⟩⟩
theorem witness_ExpandUndoesCompressOnAnotherInstance :
    ∃ t, 2 ≤ ([0x41, 0x41, 0x42] : List Symbol).dedup.length ∧
      runPseudo (.compress [0x41, 0x41, 0x42]) State.reset = .next t ∧ t.lastStatus = some .ok ∧
      FtInv (bounded 3).params t.ft ∧
      fits (bounded 3).params.cntMax ([0x41, 0x41, 0x42] : List Symbol).length = true ∧
      fits (bounded 3).params.bitsMax t.bitbuf.length = true :=
  ⟨_, by decide, rfl, by decide,
    { distinct := by decide, positive := by decide, countFits := by decide, lengthFits := by decide }, by decide, by decide⟩
theorem witness_CompressEndsOkWhenTheCapacitiesFit :
    ([0x41, 0x41, 0x42] : List Symbol).dedup.length ≠ 1 ∧ ([] : List Symbol).dedup.length ≠ 1 ∧
    fits (bounded 3).params.kMax ([0x41, 0x41, 0x42] : List Symbol).dedup.length = true ∧
    fits (bounded 3).params.cntMax ([0x41, 0x41, 0x42] : List Symbol).length = true ∧
    fits (bounded 3).params.bitsMax
      (([0x41, 0x41, 0x42] : List Symbol).length * (([0x41, 0x41, 0x42] : List Symbol).dedup.length - 1)) = true ∧
    fits (bounded 0).params.bitsMax (([] : List Symbol).length * (([] : List Symbol).dedup.length - 1)) = true := by decide
theorem witness_StepsOfTwoInstancesCommute :
    ∃ sys₁ sys₂ : Instances, (0 : Nat) ≠ 1 ∧
      stepInstance 0 [offered ⟨0x13#32, 0, []⟩ stAB, offered ⟨0x10#32, 0, []⟩ stAB] = .next sys₁ ∧
      stepInstance 1 sys₁ = .next sys₂ := ⟨_, _, by decide, rfl, rfl⟩

end Sys2Proof.Tests
end

section
/-! The step on a waiting command, and O7. -/

namespace Sys2Proof.Machine

open Sys2Proof

/-- R8, R50: a waiting command is taken from the inputs and carried out whole. -/
theorem step_of_pending_command {s : State} {c : Command} {rest : List HostEvent}
    (hp : s.pending = .command c :: rest) : step s = issueCommand c { s with pending := rest } := by
  unfold step
  rw [hp]
  rfl

/-- R58: neither the header's check nor the payload's stands in the way of a well-formed command. -/
theorem issueCommand_of_decode_wf {s : State} {c : Command} {i : Instr}
    (hd : decode c = .ok i) (hw : i.wf s.params = true) : issueCommand c s = exec i s := by
  simp only [issueCommand, hd, hw, if_true]

/-- Settles O7: the step issues the waiting command, and issuing a well-formed command runs its instruction. The check of
well-formedness reads `params` alone, which taking the input leaves as it was. -/
theorem stepRunsTheDecodedInstruction : Obligations.StepRunsTheDecodedInstruction := by
  intro s c rest i hp hd hw
  calc step s = issueCommand c { s with pending := rest } := step_of_pending_command hp
    _ = exec i { s with pending := rest } := issueCommand_of_decode_wf hd hw

end Sys2Proof.Machine
end

section
/-! The invariants of the state at reset, and what reset leaves: O12 and O10. -/

namespace Sys2Proof.Machine

open Sys2Proof

/-- R32: with everything empty or 0 there is nothing the invariants could fail for. -/
theorem resetOf_inv (p : Params) : (State.resetOf p).Inv where
  ft := FtInv.nil p
  bitbuf := fits_zero _
  tree := .inl rfl
  symbols := by simp [SymInv, CodeTree.symbols, CodeTree.empty]
  errinfo _ := rfl

/-- Settles O12: `State.reset` is the reset state under the byte parameters. -/
theorem resetStateMeetsTheInvariants : Obligations.ResetStateMeetsTheInvariants :=
  ⟨resetOf_inv Params.byteUnbounded, resetOf_inv⟩

/-- `t` holds what reset leaves, under any parameters, inputs and responses (R32). -/
structure State.IsCleared (t : State) : Prop where
  ft : t.ft = []
  tree : t.tree = CodeTree.empty
  bitbuf : t.bitbuf = []
  status : t.status = .ok
  errinfo : t.errinfo = 0

/-- R121: SYS_RESET answers OK after clearing all state. -/
theorem execSysReset_isCleared {s t : State} (h : exec .sysReset s = .next t) : t.IsCleared := by
  obtain rfl := Host.Outcome.next.inj h
  exact ⟨rfl, rfl, rfl, rfl, rfl⟩

/-- R146: the reset event clears all state. -/
theorem step_isCleared_of_reset {s t : State} {rest : List HostEvent} (hp : s.pending = .reset :: rest)
    (h : step s = .next t) : t.IsCleared := by
  simp only [step, hp, takeEvent, Host.Outcome.next.injEq] at h
  obtain rfl := h
  exact ⟨rfl, rfl, rfl, rfl, rfl⟩

/-- R27, R32: "Hence `SR[0] .. SR[5]` all read 0". -/
theorem State.IsCleared.readStatusRegister {t : State} (h : t.IsCleared) {i : Nat} (hi : i ≤ 5) :
    t.readStatusRegister i = some 0 := by
  match i, hi with
  | 0, _ => simp [State.readStatusRegister, h.status, Status.code]
  | 1, _ => simp [State.readStatusRegister, h.errinfo]
  | 2, _ => simp [State.readStatusRegister, h.bitbuf]
  | 3, _ => simp [State.readStatusRegister, h.ft]
  | 4, _ => simp [State.readStatusRegister, h.tree, CodeTree.empty]
  | 5, _ => simp [State.readStatusRegister, h.tree, CodeTree.empty, rootRegister]

/-- Settles O10: each of the three gives a cleared state, and in a cleared state every register reads 0. -/
theorem resetLeavesEverythingEmptyOrZero : Obligations.ResetLeavesEverythingEmptyOrZero := by
  intro s t h
  have hc : t.IsCleared := by
    rcases h with rfl | h | ⟨rest, hp, h⟩
    · exact ⟨rfl, rfl, rfl, rfl, rfl⟩
    · exact execSysReset_isCleared h
    · exact step_isCleared_of_reset hp h
  exact ⟨hc.ft, hc.tree, hc.bitbuf, by rw [hc.status]; rfl, hc.errinfo, fun _ => hc.readStatusRegister⟩

end Sys2Proof.Machine
end

section
/-! The code cache (R30) and the lookup (R101): O47. -/

namespace Sys2Proof.Machine

open Sys2Proof

/-- R30, R101: the traversal lists the leaves in the order in which the search meets them, so the first of a symbol is the one
the search stops at. -/
theorem find?_collectCodes (nodes : List Node) (s : Symbol) (depth : Nat) (h : Handle) (path : List Bit) :
    ((collectCodes nodes depth h path).find? (fun e => e.1 == s)).map (·.2) = findCode nodes s depth h path := by
  induction depth generalizing h path with
  | zero => rfl
  | succ depth ih =>
    cases hn : nodes[h]? with
    | none => simp [collectCodes, findCode, hn]
    | some n =>
      cases n with
      | leaf t f => by_cases ht : t = s <;> simp [collectCodes, findCode, hn, ht]
      | internal l r f =>
        simp only [collectCodes, findCode, hn, List.find?_append, Option.map_or, ih]
        cases findCode nodes s depth l (path ++ [false]) <;> rfl

/-- Settles O47: without a root both are empty-handed, and below the root the traversal and the search agree. -/
theorem codeCacheAgreesWithTheLookup : Obligations.CodeCacheAgreesWithTheLookup := by
  intro t s
  cases hr : t.root with
  | none => simp [cachedCode, codeCache, codeOf, hr]
  | some h =>
    simp only [cachedCode, codeCache, codeOf, hr]
    exact find?_collectCodes t.node s t.node.length h []

end Sys2Proof.Machine
end

section
/-! The frame of every command (R23 to R25, R137): O13. -/

namespace Sys2Proof.Machine

open Sys2Proof

/-- What a fault leaves before it responds has at most the destination written (R134). -/
theorem writesOnly_clear (d : Dest) (s : State) : WritesOnly d s (s.clear d) := by
  cases d with
  | none => rfl
  | bitbuf => exact ⟨[], rfl⟩
  | ft => exact ⟨[], rfl⟩
  | tree => exact ⟨CodeTree.empty, rfl⟩
  | allState => rfl

/-- Writing a destination leaves the parameters, the inputs, the responses and every other data state (R61). -/
theorem WritesOnly.frame {d : Dest} {s s' : State} (h : WritesOnly d s s') :
    s'.params = s.params ∧ s'.pending = s.pending ∧ s'.responses = s.responses ∧
    (d ≠ .bitbuf → d ≠ .allState → s'.bitbuf = s.bitbuf) ∧
    (d ≠ .ft → d ≠ .allState → s'.ft = s.ft) ∧
    (d ≠ .tree → d ≠ .allState → s'.tree = s.tree) := by
  cases d with
  | none => obtain rfl : s' = s := h; simp
  | bitbuf => obtain ⟨bits, rfl⟩ := h; simp
  | ft => obtain ⟨ft, rfl⟩ := h; simp
  | tree => obtain ⟨t, rfl⟩ := h; simp
  | allState => obtain rfl : s' = s.clear .allState := h; simp [State.clear_allState]

/-- The destinations of R61, by mnemonic. -/
theorem destOf_ne_of_opcode (i : Instr) :
    (i.opcode ∉ [.BB_CLEAR, .BB_APPEND, .BB_UNPACK, .CD_ENCODE, .SYS_RESET] → destOf i ≠ .bitbuf ∧ destOf i ≠ .allState) ∧
    (i.opcode ∉ [.FT_COUNT, .FT_LOAD, .SYS_RESET] → destOf i ≠ .ft ∧ destOf i ≠ .allState) ∧
    (i.opcode ∉ [.HT_BUILD, .SYS_RESET] → destOf i ≠ .tree ∧ destOf i ≠ .allState) := by
  cases i <;> simp [Instr.opcode, destOf]

/-- Every command answers with one response, whose `ST` and `INFO` every command but SYS_RDSR writes (R59, R137). -/
theorem exec_answers (i : Instr) (s : State) : ∃ t r, exec i s = .next t ∧
    t.pending = s.pending ∧ t.responses = s.responses ++ [r] ∧
    (i.opcode ≠ .SYS_RDSR → t.status = r.st ∧ t.errinfo = r.info) ∧
    (i.opcode = .SYS_RDSR → t.status = s.status ∧ t.errinfo = s.errinfo) := by
  rcases exec_cases i s with ⟨index, r, rfl, h, -⟩ | ⟨hi, kind, info, -, -, h⟩ | ⟨hi, s', val, q, hw, h⟩
  · exact ⟨_, r, h, rfl, rfl, fun ho => absurd rfl ho, fun _ => ⟨rfl, rfl⟩⟩
  · obtain ⟨-, hpending, hresp, -⟩ := (writesOnly_clear (destOf i) s).frame
    exact ⟨_, ⟨kind, info, 0, []⟩, h, hpending, congrArg (· ++ _) hresp, fun _ => ⟨rfl, rfl⟩, fun ho => absurd ho hi⟩
  · obtain ⟨-, hpending, hresp, -⟩ := hw.frame
    exact ⟨_, ⟨.ok, 0, val, q⟩, h, hpending, congrArg (· ++ _) hresp, fun _ => ⟨rfl, rfl⟩, fun ho => absurd ho hi⟩

/-- What a command leaves as it was, by its destination (R61). -/
theorem exec_frame {i : Instr} {s t : State} (h : exec i s = .next t) :
    t.params = s.params ∧
    (destOf i ≠ .bitbuf → destOf i ≠ .allState → t.bitbuf = s.bitbuf) ∧
    (destOf i ≠ .ft → destOf i ≠ .allState → t.ft = s.ft) ∧
    (destOf i ≠ .tree → destOf i ≠ .allState → t.tree = s.tree) := by
  rcases exec_cases i s with ⟨_, r, -, hx, -⟩ | ⟨-, kind, info, -, -, hx⟩ | ⟨-, s', val, q, hw, hx⟩ <;>
    obtain rfl := Host.Outcome.next.inj (hx.symm.trans h)
  · simp
  · obtain ⟨hparams, -, -, hdata⟩ := (writesOnly_clear (destOf i) s).frame
    exact ⟨hparams, hdata⟩
  · obtain ⟨hparams, -, -, hdata⟩ := hw.frame
    exact ⟨hparams, hdata⟩

/-- Settles O13: every command answers once, and the mnemonics listed for a piece of state are those of its destination. -/
theorem everyCommandChangesOnlyWhatItMayWrite : Obligations.EveryCommandChangesOnlyWhatItMayWrite := by
  intro i s
  obtain ⟨t, r, h, hpending, hresp, hstatus, hrdsr⟩ := exec_answers i s
  obtain ⟨hparams, hbits, hft, htree⟩ := exec_frame h
  obtain ⟨dbits, dft, dtree⟩ := destOf_ne_of_opcode i
  exact ⟨t, r, h, hparams, hpending, hresp, fun ho => hbits (dbits ho).1 (dbits ho).2,
    fun ho => hft (dft ho).1 (dft ho).2, fun ho => htree (dtree ho).1 (dtree ho).2, hstatus, hrdsr⟩

end Sys2Proof.Machine
end

section
/-! The invariant of the table (R31) through FT_COUNT and FT_LOAD, and where the table's symbols come from. -/

namespace Sys2Proof.Machine

open Sys2Proof

/-- Entering a new symbol with a count in range keeps the invariant of R31. -/
theorem FtInv.append_entry {p : Params} {t : List Entry} {e : Entry} (ht : FtInv p t) (hpos : 1 ≤ e.cnt)
    (hs : e.sym ∉ t.map (·.sym)) (hk : fits p.kMax (t.length + 1) = true) (hc : fits p.cntMax e.cnt = true) :
    FtInv p (t ++ [e]) where
  distinct := by
    rw [List.map_append]
    exact ht.distinct.append (by simp) (by simpa using hs)
  positive := by simpa [or_imp, forall_and, hpos] using ht.positive
  countFits := by simpa [or_imp, forall_and, hc] using ht.countFits
  lengthFits := by simpa using hk

/-- R87: when no entry gives a trap, the entries checked so far and the rest make a table that meets R31. -/
theorem loadLoop_none_inv {p : Params} {entries seen : List Entry} (hseen : FtInv p seen)
    (h : loadLoop p entries seen.length (seen.map (·.sym)) = none) : FtInv p (seen ++ entries) := by
  induction entries generalizing seen with
  | nil => simpa using hseen
  | cons e rest ih =>
    simp only [loadLoop] at h
    rcases loadFault_cases p (seen.map (·.sym)) seen.length e with ⟨-, hf⟩ | ⟨-, -, -, hf⟩ | ⟨hpos, hs, hk, hc, hf⟩
      <;> simp only [hf] at h
    · cases h
    · cases h
    · have := ih (hseen.append_entry hpos hs hk hc) (by simpa using h)
      simpa using this

/-- One iteration of FT_COUNT enters no symbol but the one it counts (R86). -/
theorem countSymbol_sym_mem {p : Params} {t t' : List Entry} {s : Symbol} (h : countSymbol p t s = some t')
    {e : Entry} (he : e ∈ t') : e.sym ∈ t.map (·.sym) ∨ e.sym = s := by
  have he' : e.sym ∈ t'.map (·.sym) := List.mem_map_of_mem he
  rcases countSymbol_cases p t s with ⟨_, -, -, h'⟩ | ⟨-, -, -, h'⟩ | ⟨-, h'⟩
  · obtain rfl := Option.some.inj (h'.symm.trans h)
    exact .inl (by simpa using he')
  · obtain rfl := Option.some.inj (h'.symm.trans h)
    simpa using he'
  · cases h'.symm.trans h

/-- FT_COUNT's loop enters no symbol but those of its input (R86). -/
theorem countLoop_sym_mem {p : Params} {syms : List Symbol} {i : Nat} {t t' : List Entry}
    (h : countLoop p syms i t = .ok t') {e : Entry} (he : e ∈ t') : e.sym ∈ t.map (·.sym) ∨ e.sym ∈ syms := by
  induction syms generalizing i t with
  | nil =>
    obtain rfl := Except.ok.inj h
    exact .inl (List.mem_map_of_mem he)
  | cons s rest ih =>
    simp only [countLoop] at h
    split at h
    · next t₁ h₁ =>
      rcases ih h with hm | hm
      · obtain ⟨e₁, he₁, hs⟩ := List.mem_map.mp hm
        rcases countSymbol_sym_mem h₁ he₁ with h₂ | h₂
        · exact .inl (hs ▸ h₂)
        · exact .inr (by simp [← hs, h₂])
      · exact .inr (List.mem_cons_of_mem _ hm)
    · cases h

end Sys2Proof.Machine
end

section
/-! The tree as the builder's loop appends nodes to it: leaves, children and internal nodes of R29. -/

namespace Sys2Proof.Machine

open Sys2Proof

variable (nodes : List Node) (root root' : Option Handle) (a b : Handle) (f : Nat)

/-- The tree of the table's leaves has their symbols (R94). -/
theorem symbols_leavesOf (ft : List Entry) : (CodeTree.mk (leavesOf ft) root).symbols = ft.map (·.sym) := by
  simp [CodeTree.symbols, leavesOf, List.filterMap_map]

/-- The tree of the table's leaves has their counts as frequencies (R94). -/
theorem leafFreqs_leavesOf (ft : List Entry) : (CodeTree.mk (leavesOf ft) root).leafFreqs = ft.map (·.cnt) := by
  simp [CodeTree.leafFreqs, leavesOf, List.filterMap_map]

/-- Leaves have no children (R25). -/
theorem childRefs_leavesOf (ft : List Entry) : (CodeTree.mk (leavesOf ft) root).childRefs = [] := by
  simp [CodeTree.childRefs, leavesOf, List.flatMap_map]

/-- A merge adds no symbol. -/
theorem symbols_append_internal :
    (CodeTree.mk (nodes ++ [.internal a b f]) root').symbols = (CodeTree.mk nodes root).symbols := by
  simp [CodeTree.symbols]

/-- A merge adds no leaf frequency. -/
theorem leafFreqs_append_internal :
    (CodeTree.mk (nodes ++ [.internal a b f]) root').leafFreqs = (CodeTree.mk nodes root).leafFreqs := by
  simp [CodeTree.leafFreqs]

/-- A merge adds its two children (R96). -/
theorem childRefs_append_internal :
    (CodeTree.mk (nodes ++ [.internal a b f]) root').childRefs = (CodeTree.mk nodes root).childRefs ++ [a, b] := by
  simp [CodeTree.childRefs]

variable {nodes root root' a b f}

/-- The shape of an internal node, written out (R29). -/
theorem internalOk_iff {t : CodeTree} {h : Handle} :
    t.internalOk h = true ↔ ∃ l r f, t.node[h]? = some (.internal l r f) ∧
      l < h ∧ r < h ∧ l ≠ r ∧ f = freqAt t.node l + freqAt t.node r := by
  unfold CodeTree.internalOk
  cases hn : t.node[h]? with
  | none => simp
  | some n => cases n <;> simp [and_assoc, and_comm, and_left_comm]

/-- A child reference is one of an internal node's two children. -/
theorem mem_childRefs {t : CodeTree} {c : Handle} :
    c ∈ t.childRefs ↔ ∃ (h l r : Handle) (f : Nat), t.node[h]? = some (.internal l r f) ∧ (c = l ∨ c = r) := by
  simp only [CodeTree.childRefs, List.mem_flatMap]
  constructor
  · rintro ⟨n, hn, hc⟩
    obtain ⟨h, hh⟩ := List.mem_iff_getElem?.mp hn
    cases n with
    | leaf s f => simp at hc
    | internal l r f => exact ⟨h, l, r, f, hh, by simpa using hc⟩
  · rintro ⟨h, l, r, f, hn, hc⟩
    exact ⟨_, List.mem_of_getElem? hn, by simpa using hc⟩

/-- Appending a node changes no earlier node's shape. -/
theorem internalOk_append {more : List Node} {h : Handle} (hok : (CodeTree.mk nodes root).internalOk h = true) :
    (CodeTree.mk (nodes ++ more) root').internalOk h = true := by
  obtain ⟨l, r, f, hn, hl, hr, hne, hf⟩ := internalOk_iff.mp hok
  have hh : h < nodes.length := (List.getElem?_eq_some_iff.mp hn).1
  refine internalOk_iff.mpr ⟨l, r, f, ?_, hl, hr, hne, ?_⟩
  · rw [← hn]; exact List.getElem?_append_left hh
  · simpa only [freqAt_append_left (hl.trans hh), freqAt_append_left (hr.trans hh)] using hf

/-- The node a merge appends has R29's shape when its children are two nodes made before it. -/
theorem internalOk_append_self (ha : a < nodes.length) (hb : b < nodes.length) (hab : a ≠ b) :
    (CodeTree.mk (nodes ++ [.internal a b (freqAt nodes a + freqAt nodes b)]) root).internalOk nodes.length = true :=
  internalOk_iff.mpr ⟨a, b, freqAt nodes a + freqAt nodes b, by simp, ha, hb, hab,
    by simp only [freqAt_append_left ha, freqAt_append_left hb]⟩

/-- The table's leaves keep their frequencies, in the table's order (R94). -/
theorem map_freqAt_leavesOf (ft : List Entry) : (List.range ft.length).map (freqAt (leavesOf ft)) = ft.map (·.cnt) := by
  apply List.ext_getElem
  · simp
  · intro j hj _
    simp at hj
    simp [freqAt, leavesOf, hj, Node.freq]

/-- A handle in range has its node's frequency. -/
theorem freqAt_mem {h : Handle} (hh : h < nodes.length) : ∃ n ∈ nodes, freqAt nodes h = n.freq :=
  ⟨nodes[h], List.getElem_mem hh, freqAt_of_getElem? (List.getElem?_eq_getElem hh)⟩

end Sys2Proof.Machine
end

section
/-! What the builder's loop keeps (R94 to R96), and the shape of the tree it ends with (R29). -/

namespace Sys2Proof.Machine

open Sys2Proof

/-- The induction over the builder's loop: what every merge keeps holds at its end, where one node or none remains. -/
theorem mergeLoop_induction {cntMax : Option Nat} {P : List Node → List Handle → Prop}
    (hmerge : ∀ nodes w a b rest, P nodes w → sortByFreq nodes w = a :: b :: rest →
      fits cntMax (freqAt nodes a + freqAt nodes b) = true →
      P (nodes ++ [.internal a b (freqAt nodes a + freqAt nodes b)]) (rest ++ [nodes.length]))
    {k : Nat} {nodes : List Node} {w : List Handle} {t : CodeTree} (hP : P nodes w) (hw : w.length ≤ k + 1)
    (h : mergeLoop cntMax k nodes w = .ok t) : ∃ w', w'.length ≤ 1 ∧ t.root = w'.head? ∧ P t.node w' := by
  induction k generalizing nodes w with
  | zero =>
    obtain rfl := Except.ok.inj h
    exact ⟨w, hw, rfl, hP⟩
  | succ k ih =>
    match hs : sortByFreq nodes w with
    | a :: b :: rest =>
      have hlen : w.length = rest.length + 2 := by rw [← sortByFreq_length nodes w, hs]; rfl
      rw [mergeLoop_succ hs] at h
      split at h
      · next hf => exact ih (hmerge nodes w a b rest hP hs hf) (by simp; omega) h
      · cases h
    | [] | [_] =>
      have hlen : w.length ≤ 1 := by rw [← sortByFreq_length nodes w, hs]; simp
      rw [mergeLoop_of_length_le_one _ hlen] at h
      obtain rfl := Except.ok.inj h
      exact ⟨w, hlen, rfl, hP⟩

/-- What holds of the nodes made so far and the working list at every iteration: each merge takes two handles off the list and
makes one node (`count`), every handle is either in the list or the child of one node (`handles`), the list's frequencies add up
to the table's counts (`total`), and the nodes are the table's leaves, then internal nodes of R29's shape. -/
structure Merging (cntMax : Option Nat) (ft : List Entry) (nodes : List Node) (w : List Handle) : Prop where
  count : nodes.length + w.length = 2 * ft.length
  notEmpty : w ≠ []
  leaves : leavesOf ft <+: nodes
  symbols : (CodeTree.mk nodes none).symbols = ft.map (·.sym)
  leafFreqs : (CodeTree.mk nodes none).leafFreqs = ft.map (·.cnt)
  internals : ∀ h < nodes.length, ft.length ≤ h → (CodeTree.mk nodes none).internalOk h = true
  handles : ((CodeTree.mk nodes none).childRefs ++ w).Perm (List.range nodes.length)
  positive : ∀ n ∈ nodes, 1 ≤ n.freq
  freqFits : ∀ n ∈ nodes, fits cntMax n.freq = true
  total : (w.map (freqAt nodes)).sum = (ft.map (·.cnt)).sum

/-- R94: the loop starts from the table's leaves, all of them in the working list. -/
theorem merging_leavesOf {p : Params} {ft : List Entry} (hft : FtInv p ft) (hne : ft ≠ []) :
    Merging p.cntMax ft (leavesOf ft) (List.range ft.length) where
  count := by simp; omega
  notEmpty := by simpa using hne
  leaves := List.prefix_rfl
  symbols := symbols_leavesOf none ft
  leafFreqs := leafFreqs_leavesOf none ft
  internals h hh hk := by simp at hh; omega
  handles := by simp [childRefs_leavesOf]
  positive := by simpa [leavesOf, Node.freq] using hft.positive
  freqFits := by simpa [leavesOf, Node.freq] using hft.countFits
  total := by rw [map_freqAt_leavesOf]

namespace Merging

variable {cntMax : Option Nat} {ft : List Entry} {nodes : List Node} {w rest : List Handle} {a b : Handle}

/-- The handles of the working list are those of nodes already made. -/
theorem handle_lt (hm : Merging cntMax ft nodes w) {h : Nat} (hh : h ∈ w) : h < nodes.length :=
  List.mem_range.mp (hm.handles.mem_iff.mp (List.mem_append_right _ hh))

/-- No handle stands twice in the working list. -/
theorem nodup (hm : Merging cntMax ft nodes w) : w.Nodup :=
  (List.nodup_append.mp (hm.handles.nodup_iff.mpr List.nodup_range)).2.1

/-- The order of the working list plays no part. -/
theorem perm {w' : List Handle} (hm : Merging cntMax ft nodes w) (hp : w'.Perm w) : Merging cntMax ft nodes w' :=
  { hm with
    count := by rw [hp.length_eq]; exact hm.count
    notEmpty := fun he => hm.notEmpty (he ▸ hp).nil_eq.symm
    handles := (hp.append_left _).trans hm.handles
    total := by rw [(hp.map _).sum_eq]; exact hm.total }

/-- One merge keeps all of it (R96). -/
theorem merge (hm : Merging cntMax ft nodes (a :: b :: rest))
    (hf : fits cntMax (freqAt nodes a + freqAt nodes b) = true) :
    Merging cntMax ft (nodes ++ [.internal a b (freqAt nodes a + freqAt nodes b)]) (rest ++ [nodes.length]) := by
  have ha : a < nodes.length := hm.handle_lt (by simp)
  have hb : b < nodes.length := hm.handle_lt (by simp)
  have hab : a ≠ b := by
    have := hm.nodup
    simp only [List.nodup_cons, List.mem_cons, not_or] at this
    exact this.1.1
  have hrest : rest.map (freqAt (nodes ++ [.internal a b (freqAt nodes a + freqAt nodes b)])) = rest.map (freqAt nodes) :=
    List.map_congr_left fun h hh => freqAt_append_left (hm.handle_lt (by simp [hh]))
  have hcount := hm.count
  have htotal := hm.total
  simp only [List.length_cons] at hcount
  simp only [List.map_cons, List.sum_cons] at htotal
  refine
    { count := by simp; omega
      notEmpty := by simp
      leaves := hm.leaves.trans (List.prefix_append _ _)
      symbols := (symbols_append_internal ..).trans hm.symbols
      leafFreqs := (leafFreqs_append_internal ..).trans hm.leafFreqs
      internals := ?_, handles := ?_, positive := ?_, freqFits := ?_, total := ?_ }
  · intro h hh hk
    rcases Nat.lt_succ_iff_lt_or_eq.mp (by simpa using hh) with hlt | rfl
    · exact internalOk_append (hm.internals h hlt hk)
    · exact internalOk_append_self ha hb hab
  · rw [childRefs_append_internal (root := none)]
    calc ((CodeTree.mk nodes none).childRefs ++ [a, b]) ++ (rest ++ [nodes.length])
        = ((CodeTree.mk nodes none).childRefs ++ (a :: b :: rest)) ++ [nodes.length] := by simp
      _ |>.Perm (List.range nodes.length ++ [nodes.length]) := hm.handles.append_right _
      _ = List.range (nodes ++ [Node.internal a b _]).length := by simp [List.range_succ]
  · obtain ⟨n, hn, hfa⟩ := freqAt_mem ha
    have hpos := hm.positive n hn
    simp only [List.mem_append, List.mem_singleton, or_imp, forall_and, forall_eq]
    exact ⟨hm.positive, by simp only [Node.freq]; omega⟩
  · simp only [List.mem_append, List.mem_singleton, or_imp, forall_and, forall_eq]
    exact ⟨hm.freqFits, hf⟩
  · rw [List.map_append, hrest, List.map_singleton, freqAt_append_self, List.sum_append]
    simp only [Node.freq, List.sum_singleton]
    omega

/-- A handle of the table has its leaf. -/
theorem isLeafAt (hm : Merging cntMax ft nodes w) {h : Nat} (hh : h < ft.length) (root : Option Handle) :
    (CodeTree.mk nodes root).isLeafAt h = true := by
  obtain ⟨more, rfl⟩ := hm.leaves
  simp [CodeTree.isLeafAt, List.getElem?_append_left, hh, leavesOf, Node.isLeaf]

/-- The last node is no node's child, since a child is made before its parent. -/
theorem childRef_lt (hm : Merging cntMax ft nodes w) {c : Nat} (hc : c ∈ (CodeTree.mk nodes none).childRefs) :
    c + 1 < nodes.length := by
  obtain ⟨h, l, r, f, hn, hc⟩ := mem_childRefs.mp hc
  have hh : h < nodes.length := (List.getElem?_eq_some_iff.mp hn).1
  have hk : ft.length ≤ h := by
    by_contra hlt
    have hleaf := hm.isLeafAt (Nat.lt_of_not_le hlt) none
    simp [CodeTree.isLeafAt, hn, Node.isLeaf] at hleaf
  obtain ⟨l', r', f', hn', hl, hr, -, -⟩ := internalOk_iff.mp (hm.internals h hh hk)
  cases hn.symm.trans hn'
  rcases hc with rfl | rfl
  · exact Nat.lt_of_le_of_lt hl hh
  · exact Nat.lt_of_le_of_lt hr hh

/-- A node that is not in the working list has one parent. -/
theorem childRefs_count (hm : Merging cntMax ft nodes w) {h : Nat} (hh : h < nodes.length) (hw : h ∉ w) :
    (CodeTree.mk nodes none).childRefs.count h = 1 := by
  have hc := hm.handles.count_eq h
  rwa [List.count_append, List.count_eq_zero.mpr hw,
    List.count_eq_one_of_mem List.nodup_range (List.mem_range.mpr hh)] at hc

/-- R96: with one node left in the list it is the last node made. -/
theorem last_eq {r : Nat} (hm : Merging cntMax ft nodes [r]) : r = 2 * ft.length - 2 := by
  have hcount := hm.count
  have hr := hm.handle_lt (h := r) (by simp)
  simp only [List.length_singleton] at hcount
  have hlast : 2 * ft.length - 2 ∈ (CodeTree.mk nodes none).childRefs ++ [r] :=
    hm.handles.mem_iff.mpr (List.mem_range.mpr (by omega))
  rcases List.mem_append.mp hlast with hc | hc
  · have := hm.childRef_lt hc
    omega
  · exact (List.mem_singleton.mp hc).symm

/-- R29, R100: with one node left the tree has the built shape. -/
theorem built {r : Nat} (hm : Merging cntMax ft nodes [r]) (h2 : 2 ≤ ft.length) (hd : (ft.map (·.sym)).Nodup) :
    (CodeTree.mk nodes (some r)).Built cntMax ft.length := by
  obtain rfl := hm.last_eq
  have hcount := hm.count
  simp only [List.length_singleton] at hcount
  exact
    { twoEntries := h2
      count := by dsimp only; omega
      rootLast := rfl
      leaves := fun h hh => hm.isLeafAt hh _
      distinct := hm.symbols ▸ hd
      internals := fun h hh hk => hm.internals h (by omega) hk
      oneParent := fun (h : Nat) hh => hm.childRefs_count (by omega) (by simp; omega)
      rootNoParent := List.count_eq_zero.mpr fun hc => by have := hm.childRef_lt hc; omega
      positive := hm.positive
      freqFits := hm.freqFits
      rootSum :=
        calc freqAt nodes (2 * ft.length - 2) = (ft.map (·.cnt)).sum := by simpa using hm.total
          _ = (CodeTree.mk nodes none).leafFreqs.sum := by rw [hm.leafFreqs] }

end Merging

/-- R29, R93: a tree built from a table that meets R31 is the empty tree or has the built shape with the table's symbols. -/
theorem buildTree_shape {p : Params} {ft : List Entry} {t : CodeTree} (hft : FtInv p ft)
    (h : buildTree p.cntMax ft = .ok t) :
    t = CodeTree.empty ∨ (t.Built p.cntMax ft.length ∧ t.symbols = ft.map (·.sym)) := by
  match ft with
  | [] => exact .inl (Except.ok.inj h).symm
  | [_] => cases h
  | e :: e' :: rest =>
    obtain ⟨w, hw, hroot, hm⟩ := mergeLoop_induction (P := Merging p.cntMax (e :: e' :: rest))
      (fun nodes w a b rest' hm hs hf => (hm.perm (hs ▸ sortByFreq_perm nodes w)).merge hf)
      (merging_leavesOf hft (by simp)) (by simp) h
    match w with
    | [] => exact absurd rfl hm.notEmpty
    | [r] =>
      obtain ⟨node, root⟩ := t
      obtain rfl : root = some r := hroot
      exact .inr ⟨hm.built (by simp) hft.distinct, hm.symbols⟩

end Sys2Proof.Machine
end

section
/-! Every command keeps the invariants, one piece of state after the other, and so does every step: O11. -/

namespace Sys2Proof.Machine

open Sys2Proof

section Pieces

variable {i : Instr} {s t : State}

/-- R24: each writer of `BITBUF` leaves it empty or tests the capacity first. -/
theorem exec_keeps_bitInv (hs : BitInv s.params s.bitbuf) (h : exec i s = .next t) : BitInv s.params t.bitbuf := by
  have hempty : BitInv s.params [] := fits_zero _
  cases i with
  | sysReset => exact (execSysReset_isCleared h).bitbuf ▸ hempty
  | bbClear => exact Host.Outcome.next.inj h ▸ hempty
  | bbAppend b =>
    rcases execBbAppend_cases b s with ⟨-, hx⟩ | ⟨hb, hx⟩ <;> obtain rfl := Host.Outcome.next.inj (hx.symm.trans h)
    · exact hempty
    · have hb' : atBound s.params.bitsMax s.bitbuf.length = false := by simpa [← atBound_iff] using hb
      simpa [BitInv, State.afterOk] using fits_succ_of_not_atBound hs hb'
  | bbUnpack n bytes =>
    rcases execBbUnpack_cases n bytes s with ⟨-, hx⟩ | ⟨-, -, hx⟩ | ⟨-, hf, hx⟩ <;>
      obtain rfl := Host.Outcome.next.inj (hx.symm.trans h)
    · exact hempty
    · exact hempty
    · simpa [BitInv, State.afterOk] using hf
  | cdEncode syms =>
    rcases execCdEncode_cases syms s with ⟨out, ho, hx⟩ | ⟨_, _, hx⟩ <;>
      obtain rfl := Host.Outcome.next.inj (hx.symm.trans h)
    · exact encodeLoop_fits (fits_zero _) ho
    · exact hempty
  | _ =>
    obtain ⟨-, hbits, -⟩ := exec_frame h
    exact hbits (by simp [destOf]) (by simp [destOf]) ▸ hs

/-- R31, R58: each writer of `FT` leaves it empty or has checked the table it stores; the symbols are its payload's. -/
theorem exec_keeps_ftInv (hs : FtInv s.params s.ft ∧ ∀ e ∈ s.ft, symbolOk s.params e.sym = true)
    (hw : i.wf s.params = true) (h : exec i s = .next t) :
    FtInv s.params t.ft ∧ ∀ e ∈ t.ft, symbolOk s.params e.sym = true := by
  have hempty : FtInv s.params [] ∧ ∀ e ∈ ([] : List Entry), symbolOk s.params e.sym = true := ⟨FtInv.nil _, by simp⟩
  cases i with
  | sysReset => exact (execSysReset_isCleared h).ft ▸ hempty
  | ftCount syms =>
    rcases execFtCount_cases syms s with ⟨ft, hft, hx⟩ | ⟨_, _, _, hx⟩ <;>
      obtain rfl := Host.Outcome.next.inj (hx.symm.trans h)
    · refine ⟨countLoop_keeps_inv syms 0 (FtInv.nil _) hft, fun e he => ?_⟩
      rcases countLoop_sym_mem hft he with hm | hm
      · simp at hm
      · exact List.all_eq_true.mp hw _ hm
    · exact hempty
  | ftLoad entries =>
    rcases execFtLoad_cases entries s with ⟨hl, hx⟩ | ⟨_, _, hx⟩ <;>
      obtain rfl := Host.Outcome.next.inj (hx.symm.trans h)
    · exact ⟨loadLoop_none_inv (FtInv.nil _) hl, List.all_eq_true.mp hw⟩
    · exact hempty
  | _ =>
    obtain ⟨-, -, hft, -⟩ := exec_frame h
    exact hft (by simp [destOf]) (by simp [destOf]) ▸ hs

/-- R29: HT_BUILD leaves the empty tree or one built from the table, with the table's symbols. -/
theorem exec_keeps_treeInv (hs : s.Inv) (h : exec i s = .next t) :
    TreeInv s.params.cntMax t.tree ∧ ∀ x ∈ t.tree.symbols, symbolOk s.params x = true := by
  obtain ⟨hftSyms, htreeSyms⟩ := hs.symbols
  have hempty : TreeInv s.params.cntMax CodeTree.empty ∧ ∀ x ∈ CodeTree.empty.symbols, symbolOk s.params x = true :=
    ⟨.inl rfl, by simp [CodeTree.symbols, CodeTree.empty]⟩
  cases i with
  | sysReset => exact (execSysReset_isCleared h).tree ▸ hempty
  | htBuild =>
    rcases execHtBuild_cases s with ⟨tree, ht, hx⟩ | ⟨_, _, hx⟩ <;>
      obtain rfl := Host.Outcome.next.inj (hx.symm.trans h)
    · rcases buildTree_shape hs.ft ht with rfl | ⟨hb, hsyms⟩
      · exact hempty
      · refine ⟨.inr ⟨_, hb⟩, fun x hx => ?_⟩
        obtain ⟨e, he, rfl⟩ := List.mem_map.mp (hsyms ▸ hx)
        exact hftSyms e he
    · exact hempty
  | _ =>
    obtain ⟨-, -, -, htree⟩ := exec_frame h
    exact htree (by simp [destOf]) (by simp [destOf]) ▸ ⟨hs.tree, htreeSyms⟩

/-- R27, R137: a command that ends OK writes 0 to `ERRINFO`, a fault writes a status other than OK, SYS_RDSR writes neither. -/
theorem exec_keeps_errinfo (hs : s.status = .ok → s.errinfo = 0) (h : exec i s = .next t) :
    t.status = .ok → t.errinfo = 0 := by
  rcases exec_cases i s with ⟨_, r, -, hx, -⟩ | ⟨-, kind, info, hk, -, hx⟩ | ⟨-, s', val, q, -, hx⟩ <;>
    obtain rfl := Host.Outcome.next.inj (hx.symm.trans h)
  · exact hs
  · exact fun hok => absurd hok hk
  · exact fun _ => rfl

/-- Every well-formed command keeps the invariants. -/
theorem exec_keeps_inv (hs : s.Inv) (hw : i.wf s.params = true) (h : exec i s = .next t) : t.Inv := by
  obtain ⟨hsyms, -⟩ := hs.symbols
  obtain ⟨hft, hftSyms⟩ := exec_keeps_ftInv ⟨hs.ft, hsyms⟩ hw h
  obtain ⟨htree, htreeSyms⟩ := exec_keeps_treeInv hs h
  obtain ⟨hparams, -⟩ := exec_frame h
  rw [← hparams] at hft hftSyms htree htreeSyms
  exact
    { ft := hft
      bitbuf := hparams ▸ exec_keeps_bitInv hs.bitbuf h
      tree := htree
      symbols := ⟨hftSyms, htreeSyms⟩
      errinfo := exec_keeps_errinfo hs.errinfo h }

/-- The invariants do not speak of the inputs waiting or of the responses given. -/
theorem State.Inv.withInputsAndResponses (hs : s.Inv) (es : List HostEvent) (rs : List Response) :
    { s with pending := es, responses := rs }.Inv :=
  ⟨hs.ft, hs.bitbuf, hs.tree, hs.symbols, hs.errinfo⟩

/-- A fault that clears nothing keeps the invariants (R63, R134). -/
theorem State.Inv.afterFault (hs : s.Inv) {kind : Status} (hk : kind ≠ .ok) (info : Nat) : (s.afterFault kind info).Inv :=
  ⟨hs.ft, hs.bitbuf, hs.tree, hs.symbols, fun hok => absurd hok hk⟩

end Pieces

/-- Settles O11: an idle step changes nothing, the reset event gives the reset state, an illegal header is a fault that clears
nothing, and a command that runs keeps the invariants. -/
theorem everyStepKeepsTheInvariants : Obligations.EveryStepKeepsTheInvariants := by
  intro s t hs h
  rcases step_next_cases h with ⟨-, rfl⟩ | ⟨e, rest, -, -, rfl⟩ | ⟨c, rest, flaw, -, -, rfl⟩ | ⟨c, rest, i, -, -, hw, hx⟩
  · exact hs
  · exact (resetOf_inv s.params).withInputsAndResponses rest s.responses
  · exact (hs.withInputsAndResponses rest s.responses).afterFault (by decide) _
  · exact exec_keeps_inv (hs.withInputsAndResponses rest s.responses) hw hx

end Sys2Proof.Machine
end

section
/-! Reading has no side effect (R47): O19. -/

namespace Sys2Proof.Machine

open Sys2Proof

/-- `u` agrees with `s` on all that a command without a destination may read: the parameters and the data state, but not the
status registers, the inputs waiting or the responses given. -/
structure State.SameData (s u : State) : Prop where
  params : u.params = s.params
  ft : u.ft = s.ft
  tree : u.tree = s.tree
  bitbuf : u.bitbuf = s.bitbuf

theorem State.SameData.refl (s : State) : s.SameData s := ⟨rfl, rfl, rfl, rfl⟩

/-- Answering writes no data state (R137). -/
theorem State.SameData.afterResponse (s : State) (r : Response) : s.SameData (s.afterResponse r) := ⟨rfl, rfl, rfl, rfl⟩

/-- R47: a command without a destination, SYS_RDSR apart, only answers, and its answer depends on the parameters and the data
state alone. -/
theorem exec_of_dest_none {i : Instr} (hd : destOf i = .none) (hi : i.opcode ≠ .SYS_RDSR) (s : State) :
    ∃ r, ∀ u, s.SameData u → exec i u = .next (u.afterResponse r) := by
  cases i with
  | bbLen => exact ⟨⟨.ok, 0, s.bitbuf.length, []⟩, fun u hu => hu.bitbuf ▸ rfl⟩
  | bbPack => exact ⟨⟨.ok, 0, 0, byteElems (packBits s.bitbuf)⟩, fun u hu => hu.bitbuf ▸ rfl⟩
  | ftRead => exact ⟨⟨.ok, 0, 0, entryElems s.ft⟩, fun u hu => hu.ft ▸ rfl⟩
  | htGetcode arg =>
    cases harg : symbolOfArg s.params arg with
    | none => exact ⟨⟨.illegalOperand, arg, 0, []⟩, fun u hu => by simp only [exec, execHtGetcode, hu.params, harg]; rfl⟩
    | some x =>
      cases hc : codeOf s.tree x with
      | none =>
        exact ⟨⟨.unknownSymbol, arg, 0, []⟩, fun u hu => by
          simp only [exec, execHtGetcode, hu.params, harg, hu.tree, hc]; rfl⟩
      | some c =>
        exact ⟨⟨.ok, 0, 0, bitElems c⟩, fun u hu => by
          simp only [exec, execHtGetcode, hu.params, harg, hu.tree, hc]; rfl⟩
  | htDescend h b =>
    match hn : nodeOfArg s.tree h with
    | none => exact ⟨⟨.illegalOperand, h, 0, []⟩, fun u hu => by simp only [exec, execHtDescend, hu.tree, hn]; rfl⟩
    | some (.leaf _ _) =>
      exact ⟨⟨.structuralViolation, h, 0, []⟩, fun u hu => by simp only [exec, execHtDescend, hu.tree, hn]; rfl⟩
    | some (.internal l r _) =>
      exact ⟨⟨.ok, 0, if b then r else l, []⟩, fun u hu => by simp only [exec, execHtDescend, hu.tree, hn]; rfl⟩
  | htIsleaf h =>
    cases hn : nodeOfArg s.tree h with
    | none => exact ⟨⟨.illegalOperand, h, 0, []⟩, fun u hu => by simp only [exec, execHtIsleaf, hu.tree, hn]; rfl⟩
    | some n => exact ⟨⟨.ok, 0, boolVal n.isLeaf, []⟩, fun u hu => by simp only [exec, execHtIsleaf, hu.tree, hn]; rfl⟩
  | htNode h =>
    cases hn : nodeOfArg s.tree h with
    | none => exact ⟨⟨.illegalOperand, h, 0, []⟩, fun u hu => by simp only [exec, execHtNode, hu.tree, hn]; rfl⟩
    | some n => exact ⟨⟨.ok, 0, n.freq, nodeElems n⟩, fun u hu => by simp only [exec, execHtNode, hu.tree, hn]; rfl⟩
  | cdDecode =>
    cases hdec : decodeBits s.tree s.bitbuf with
    | ok out =>
      exact ⟨⟨.ok, 0, 0, symElems out⟩, fun u hu => by simp only [exec, execCdDecode, hu.tree, hu.bitbuf, hdec]; rfl⟩
    | error trap =>
      exact ⟨⟨trap.kind, trap.info, 0, []⟩, fun u hu => by simp only [exec, execCdDecode, hu.tree, hu.bitbuf, hdec]; rfl⟩
  | sysRdsr _ => exact absurd rfl hi
  | _ => cases hd

/-- The readers have no destination, and SYS_RDSR is not among them (R61). -/
theorem destOf_eq_none_of_reader {i : Instr}
    (hi : i.opcode ∈ [.BB_LEN, .BB_PACK, .FT_READ, .HT_GETCODE, .HT_DESCEND, .HT_ISLEAF, .HT_NODE, .CD_DECODE]) :
    destOf i = .none ∧ i.opcode ≠ .SYS_RDSR := by
  cases i <;> simp [Instr.opcode, destOf] at hi ⊢

/-- Settles O19: the first answer leaves the data state as it was, so the second is the same, and the status registers already
hold what it writes to them. -/
theorem readingTwiceGivesTheSameResponse : Obligations.ReadingTwiceGivesTheSameResponse := by
  intro i s hi
  obtain ⟨hd, hrdsr⟩ := destOf_eq_none_of_reader hi
  obtain ⟨r, hr⟩ := exec_of_dest_none hd hrdsr s
  refine ⟨s.afterResponse r, r, hr s (.refl s), rfl, ?_⟩
  calc exec i (s.afterResponse r) = .next ((s.afterResponse r).afterResponse r) := hr _ (.afterResponse s r)
    _ = .next { s.afterResponse r with responses := (s.afterResponse r).responses ++ [r] } :=
      congrArg _ (s.afterResponse_afterResponse r)

end Sys2Proof.Machine
end

section
/-! The header word and the opcode map (R56, R62, R63): O4 and O2. -/

namespace Sys2Proof

/-- The commands with a `B` operand: the rows of R62 whose mask leaves bit 8 open. -/
def Opcode.HasB (op : Opcode) : Prop := op = .BB_APPEND ∨ op = .HT_DESCEND

/-- A header is its three fields (R56). -/
theorem header_ext {w w' : HeaderWord} (hop : opField w = opField w') (hb : bField w = bField w')
    (hz : zeroField w = zeroField w') : w = w' := by
  apply BitVec.eq_of_getLsbD_eq
  intro i hi
  rcases Nat.lt_trichotomy i 8 with h | rfl | h
  · simpa [opField, h] using congrArg (·.getLsbD i) hop
  · exact hb
  · have hbit := congrArg (·.getLsbD (i - 9)) hz
    simpa [zeroField, show i - 9 < 23 by omega, show 9 + (i - 9) = i by omega] using hbit

/-- The field `OP` of a row's header is the row's, whatever `B` is (R65). -/
theorem opField_headerWord (op : Opcode) (b : Bit) : opField (headerWord op b) = opField op.matchBits := by
  cases b <;> cases op <;> decide

/-- Every row of R62 has its mnemonic's `match` word, and its mask looks at all of `OP` and `ZERO`, and at `B` where the command
has no `B` operand. -/
theorem opcodeTable_row {r : OpcodeRow} (hr : r ∈ opcodeTable) :
    r.matchBits = r.op.matchBits ∧ opField r.mask = BitVec.allOnes 8 ∧ zeroField r.mask = BitVec.allOnes 23 ∧
      (bField r.mask = true ∨ r.op.HasB) := by
  revert r
  unfold Opcode.HasB
  decide

/-- The mnemonic tells the row. -/
theorem opcodeTable_row_unique : ∀ r ∈ opcodeTable, ∀ r' ∈ opcodeTable, r.op = r'.op → r = r' := by decide

/-- A row's `match` word has 0 in `B`. -/
theorem bField_matchBits (op : Opcode) : bField op.matchBits = false := by cases op <;> decide

/-- A row's `match` word has 0 in `ZERO`. -/
theorem zeroField_matchBits (op : Opcode) : zeroField op.matchBits = 0 := by cases op <;> decide

/-- A mask works on each field of a header: on `OP`. -/
theorem opField_and (w m : HeaderWord) : opField (w &&& m) = opField w &&& opField m := BitVec.extractLsb'_and

/-- A mask works on each field of a header: on `ZERO`. -/
theorem zeroField_and (w m : HeaderWord) : zeroField (w &&& m) = zeroField w &&& zeroField m := BitVec.extractLsb'_and

/-- A mask works on each field of a header: on `B`. -/
theorem bField_and (w m : HeaderWord) : bField (w &&& m) = (bField w && bField m) := BitVec.getLsbD_and

/-- A row selects no other headers than those R65 writes for it. -/
theorem eq_headerWord_of_selects {r : OpcodeRow} {w : HeaderWord} (hr : r ∈ opcodeTable) (h : r.selects w = true) :
    w = headerWord r.op (bField w) ∧ (bField w = true → r.op.HasB) := by
  obtain ⟨hmatch, hop, hz, hb⟩ := opcodeTable_row hr
  have hsel : w &&& r.mask = r.op.matchBits := hmatch ▸ of_decide_eq_true h
  have hopw : opField w = opField r.op.matchBits := by rw [← hsel, opField_and, hop, BitVec.and_allOnes]
  have hzw : zeroField w = 0 := by rw [← zeroField_matchBits r.op, ← hsel, zeroField_and, hz, BitVec.and_allOnes]
  refine ⟨header_ext ?_ ?_ ?_, fun hw => hb.resolve_left fun hm => ?_⟩
  · rw [opField_headerWord, hopw]
  · rw [bField_headerWord]
  · rw [zeroField_headerWord, hzw]
  · have hnot := bField_matchBits r.op
    simp [← hsel, bField_and, hw, hm] at hnot

/-- R62, R65: a header selects a command exactly when it is one of the words R65 writes for that command. -/
theorem selectOpcode_eq_some {w : HeaderWord} {op : Opcode} :
    selectOpcode w = some op ↔ w = headerWord op (bField w) ∧ (bField w = true → op.HasB) := by
  constructor
  · intro h
    obtain ⟨r, hr, rfl⟩ := Option.map_eq_some_iff.mp h
    exact eq_headerWord_of_selects (List.mem_of_find?_eq_some hr) (by simpa using List.find?_some hr)
  · rintro ⟨hw, hB⟩
    rw [hw]
    exact selectOpcode_headerWord op _ hB

/-- Settles O4: both rows' mnemonics are the one the header selects, and a mnemonic has one row. -/
theorem noHeaderSelectsTwoRows : Obligations.NoHeaderSelectsTwoRows := by
  intro w r r' hr hr' h h'
  have hop : some r.op = some r'.op :=
    (selectOpcode_eq_some.mpr (eq_headerWord_of_selects hr h)).symm.trans
      (selectOpcode_eq_some.mpr (eq_headerWord_of_selects hr' h'))
  exact opcodeTable_row_unique r hr r' hr' (Option.some.inj hop)

/-- The 17 values of `OP` in the table. -/
theorem opField_mem_iff (x : BitVec 8) :
    x ∈ ([0x01, 0x02, 0x10, 0x11, 0x12, 0x13, 0x14, 0x20, 0x21, 0x22, 0x30, 0x31, 0x32, 0x33, 0x34, 0x40, 0x41] :
      List (BitVec 8)) ↔ ∃ op : Opcode, x = opField op.matchBits := by
  constructor
  · intro h
    have hrow : ∃ r ∈ opcodeTable, x = opField r.op.matchBits := by revert x; decide
    obtain ⟨r, -, hx⟩ := hrow
    exact ⟨r.op, hx⟩
  · rintro ⟨op, rfl⟩
    cases op <;> decide

/-- `OP` tells which commands have a `B` operand. -/
theorem hasB_iff_opField (op : Opcode) :
    op.HasB ↔ opField op.matchBits = 0x11 ∨ opField op.matchBits = 0x32 := by
  unfold Opcode.HasB
  cases op <;> decide

/-- R63: "every header either selects one of the 17 commands or is illegal". -/
theorem illegalHeader_iff_selectOpcode (w : HeaderWord) : Machine.IllegalHeader w ↔ selectOpcode w = none := by
  rw [← not_iff_not, ← ne_eq (selectOpcode w), Option.ne_none_iff_exists']
  unfold Machine.IllegalHeader
  rw [opField_mem_iff]
  push Not
  constructor
  · rintro ⟨⟨op, hop⟩, hz, hB⟩
    refine ⟨op, selectOpcode_eq_some.mpr ⟨?_, fun hb => ?_⟩⟩
    · refine header_ext ?_ ?_ ?_
      · rw [hop, opField_headerWord]
      · rw [bField_headerWord]
      · rw [hz, zeroField_headerWord]
    · rw [hasB_iff_opField, ← hop]
      exact or_iff_not_imp_left.mpr (hB hb)
  · rintro ⟨op, h⟩
    obtain ⟨hw, hB⟩ := selectOpcode_eq_some.mp h
    have hop : opField w = opField op.matchBits := by rw [hw, opField_headerWord]
    refine ⟨⟨op, hop⟩, by rw [hw, zeroField_headerWord], fun hb => ?_⟩
    rw [hop]
    exact or_iff_not_imp_left.mp ((hasB_iff_opField op).mp (hB hb))

/-- A payload is never rejected for its header. -/
theorem typedPayload_ne_illegalHeader {α : Type} (xs : Option (List α)) (make : List α → Instr) (flaw : HeaderFlaw) :
    typedPayload xs make ≠ .error (.illegalHeader flaw) := by
  cases xs <;> simp [typedPayload]

/-- Once the header has selected a command it is not rejected for its header (R58, R63). -/
theorem decodeOperands_ne_illegalHeader (op : Opcode) (c : Command) (flaw : HeaderFlaw) :
    decodeOperands op c ≠ .error (.illegalHeader flaw) := by
  cases op <;> simp [decodeOperands, typedPayload_ne_illegalHeader]

/-- Settles O2: the decoder rejects a header exactly when it selects no command. -/
theorem headerIsRejectedExactlyInTheThreeIllegalCases :
    Obligations.HeaderIsRejectedExactlyInTheThreeIllegalCases := by
  intro c
  rw [illegalHeader_iff_selectOpcode]
  cases h : selectOpcode c.hdr with
  | none => simp [decode, h]
  | some op => simp [decode_of_select h, decodeOperands_ne_illegalHeader]

end Sys2Proof
end

section
/-! The operands (R57, R58, R61): O1 and O5. -/

namespace Sys2Proof

/-- A payload read as bytes is made of these bytes and nothing else. -/
theorem bytesOf_eq_some {p : List Elem} {bytes : List Byte} : bytesOf p = some bytes ↔ p = bytes.map .byte := by
  constructor
  · intro h
    induction p generalizing bytes with
    | nil => simp [bytesOf] at h; simp [← h]
    | cons e p ih =>
      cases e <;> simp [bytesOf] at h
      obtain ⟨l, hl, rfl⟩ := h
      simp [ih hl]
  · rintro rfl
    exact bytesOf_map bytes

/-- A payload read as table entries is made of these entries and nothing else. -/
theorem entriesOf_eq_some {p : List Elem} {entries : List Entry} :
    entriesOf p = some entries ↔ p = entries.map .entry := by
  constructor
  · intro h
    induction p generalizing entries with
    | nil => simp [entriesOf] at h; simp [← h]
    | cons e p ih =>
      cases e <;> simp [entriesOf] at h
      obtain ⟨l, hl, rfl⟩ := h
      simp [ih hl]
  · rintro rfl
    exact entriesOf_map entries

/-- A command with a payload decodes exactly when the payload is of its type. -/
theorem typedPayload_eq_ok {α : Type} {xs : Option (List α)} {make : List α → Instr} {i : Instr} :
    typedPayload xs make = .ok i ↔ ∃ l, xs = some l ∧ make l = i := by
  cases xs <;> simp [typedPayload]

/-- Only the commands with a `B` operand encode `B = 1` (R61). -/
theorem hasB_of_bOperand {i : Instr} (h : i.bOperand = true) : i.opcode.HasB := by
  cases i <;> simp [Instr.bOperand, Instr.opcode, Opcode.HasB] at h ⊢

/-- The header of every encoding selects its command (R65). -/
theorem selectOpcode_encode (i : Instr) : selectOpcode (encode i).hdr = some i.opcode :=
  selectOpcode_headerWord _ _ hasB_of_bOperand

/-- The operands of every encoding are read back (R61, R65). -/
theorem decodeOperands_encode (i : Instr) : decodeOperands i.opcode (encode i) = .ok i := by
  cases i <;>
    simp [Instr.opcode, decodeOperands, encode, Instr.bOperand, Instr.argOperand, Instr.payload, typedPayload,
      bField_headerWord]

/-- The commands that use `ARG` (R61). -/
abbrev argUsers : List Opcode := [.SYS_RDSR, .BB_UNPACK, .HT_GETCODE, .HT_DESCEND, .HT_ISLEAF, .HT_NODE]

/-- The commands that use `P` (R61). -/
abbrev payloadUsers : List Opcode := [.BB_UNPACK, .FT_COUNT, .FT_LOAD, .CD_ENCODE]

/-- What the decoder takes from the command once its header has selected `op` (R57, R58, R61). -/
theorem decodeOperands_eq_ok {op : Opcode} {c : Command} {i : Instr} (h : decodeOperands op c = .ok i) :
    i.opcode = op ∧ (op.HasB → i.bOperand = bField c.hdr) ∧ (op ∈ argUsers → i.argOperand = c.arg) ∧
      (op ∈ payloadUsers → i.payload = c.p) := by
  unfold Opcode.HasB
  cases op with
  | BB_UNPACK =>
    obtain ⟨l, hl, rfl⟩ := typedPayload_eq_ok.mp h
    simp [Instr.opcode, Instr.argOperand, Instr.payload, bytesOf_eq_some.mp hl]
  | FT_COUNT | CD_ENCODE =>
    obtain ⟨l, hl, rfl⟩ := typedPayload_eq_ok.mp h
    simp [Instr.opcode, Instr.payload, symbolsOf_eq_some.mp hl]
  | FT_LOAD =>
    obtain ⟨l, hl, rfl⟩ := typedPayload_eq_ok.mp h
    simp [Instr.opcode, Instr.payload, entriesOf_eq_some.mp hl]
  | _ =>
    obtain rfl := Except.ok.inj h
    simp [Instr.opcode, Instr.bOperand, Instr.argOperand]

/-- A command decodes to `i` only if its header selects `i`'s row. -/
theorem decode_eq_ok {c : Command} {i : Instr} (h : decode c = .ok i) :
    selectOpcode c.hdr = some i.opcode ∧ decodeOperands i.opcode c = .ok i := by
  cases hs : selectOpcode c.hdr with
  | none => simp [decode, hs] at h
  | some op =>
    rw [decode_of_select hs] at h
    obtain ⟨rfl, -⟩ := decodeOperands_eq_ok h
    exact ⟨rfl, h⟩

/-- Settles O1: the header of an encoding selects the instruction's row, whose operands are read back; conversely a header that
selects the row is the one R65 writes for its `B`, and the operands are the command's. -/
theorem decodeAndEncodeAgree : Obligations.DecodeAndEncodeAgree := by
  refine ⟨fun i => (decode_of_select (selectOpcode_encode i)).trans (decodeOperands_encode i), fun c i h => ?_⟩
  obtain ⟨hsel, hops⟩ := decode_eq_ok h
  obtain ⟨hw, hB⟩ := selectOpcode_eq_some.mp hsel
  obtain ⟨-, hb, harg, hp⟩ := decodeOperands_eq_ok hops
  refine ⟨?_, harg, hp⟩
  have hbits : i.bOperand = bField c.hdr :=
    Bool.eq_iff_iff.mpr ⟨fun hi => hb (hasB_of_bOperand hi) ▸ hi, fun hc => (hb (hB hc)).trans hc⟩
  rw [hw, ← hbits]
  rfl

/-- Settles O5: each of the seven words evaluates to the row, or the flaw, of R62 and R63. -/
theorem specHeaderWordsDecode : Obligations.SpecHeaderWordsDecode := by
  unfold Obligations.SpecHeaderWordsDecode
  decide

end Sys2Proof
end

section
/-! The assembler lines (R65): O6. -/

namespace Sys2Proof.Machine

open Sys2Proof

/-- The number of a bit reads back as that bit (R65). -/
@[simp] theorem AsmOperand.bit_num_toNat (b : Bit) : (AsmOperand.num b.toNat).bit = some b := by cases b <;> rfl

/-- R65: the line of every instruction, operands in the order R65 gives them, is its encoding. -/
theorem assemble_asmLine (i : Instr) : (asmLine i).assemble = some (encode i) := by
  cases i with
  | bbAppend b | htDescend h b => simp [asmLine, AsmLine.assemble, encode, Instr.opcode, Instr.bOperand,
      Instr.argOperand, Instr.payload]
  | _ => rfl

/-- Settles O6: the lines with numbers assemble to the encodings, and a register name has its index as value. -/
theorem assembledLineIsTheEncoding : Obligations.AssembledLineIsTheEncoding :=
  ⟨assemble_asmLine, fun _ => rfl⟩

end Sys2Proof.Machine
end

section
/-! One response to every command (R59), and what it carries (R61): O9 and O14. -/

namespace Sys2Proof.Machine

open Sys2Proof

/-- Settles O9: a command that can be written down runs, and every instruction answers once, or its header is answered
IllegalCommand. -/
theorem everyTypedCommandIsAnsweredOnce : Obligations.EveryTypedCommandIsAnsweredOnce := by
  intro s c rest hp htyped
  rw [step_of_pending_command hp]
  rcases issueCommand_cases c { s with pending := rest } with ⟨i, -, -, hi⟩ | ⟨flaw, -, hi⟩ | ⟨hnot, -⟩
  · obtain ⟨t, r, hx, hpending, hresp, -⟩ := exec_answers i { s with pending := rest }
    obtain ⟨hparams, -⟩ := exec_frame hx
    exact ⟨t, r, hi.trans hx, hpending, hparams, hresp⟩
  · exact ⟨_, _, hi, rfl, rfl, rfl⟩
  · exact absurd htyped hnot

/-- R59, R134: `INFO` tells of a fault, `VAL` and `Q` of an OK command. -/
theorem exec_response_of_status {i : Instr} {s t : State} {r : Response} (h : exec i s = .next t)
    (hr : t.responses = s.responses ++ [r]) : (r.st = .ok → r.info = 0) ∧ (r.st ≠ .ok → r.val = 0 ∧ r.q = []) := by
  rcases exec_cases i s with ⟨index, r', -, hx, hv⟩ | ⟨-, kind, info, hk, -, hx⟩ | ⟨-, s', val, q, hw, hx⟩ <;>
    obtain rfl := Host.Outcome.next.inj (hx.symm.trans h)
  · obtain rfl : r' = r := by simpa using hr
    rcases hv with ⟨v, -, rfl⟩ | ⟨-, rfl⟩ <;> simp
  · obtain ⟨-, -, hresp, -⟩ := (writesOnly_clear (destOf i) s).frame
    obtain rfl : (⟨kind, info, 0, []⟩ : Response) = r := by simpa [State.raise, hresp] using hr
    exact ⟨fun hok => absurd hok hk, fun _ => ⟨rfl, rfl⟩⟩
  · obtain ⟨-, -, hresp, -⟩ := hw.frame
    obtain rfl : (⟨.ok, 0, val, q⟩ : Response) = r := by simpa [State.complete, hresp] using hr
    exact ⟨fun _ => rfl, fun hne => absurd rfl hne⟩

/-- R61, columns "scalar result" and "payload result": which commands answer `VAL`, and which answer `Q`. -/
theorem exec_results (i : Instr) (s : State) : ∃ t r, exec i s = .next t ∧ t.responses = s.responses ++ [r] ∧
    (i.opcode ∉ [.SYS_RDSR, .BB_LEN, .HT_DESCEND, .HT_ISLEAF, .HT_NODE] → r.val = 0) ∧
    (i.opcode ∉ [.BB_PACK, .FT_READ, .HT_GETCODE, .HT_NODE, .CD_DECODE] → r.q = []) := by
  cases i with
  | sysReset | bbClear => exact ⟨_, _, rfl, rfl, fun _ => rfl, fun _ => rfl⟩
  | bbAppend b =>
    rcases execBbAppend_cases b s with ⟨-, h⟩ | ⟨-, h⟩ <;> exact ⟨_, _, h, rfl, fun _ => rfl, fun _ => rfl⟩
  | bbUnpack n bytes =>
    rcases execBbUnpack_cases n bytes s with ⟨-, h⟩ | ⟨-, -, h⟩ | ⟨-, -, h⟩ <;>
      exact ⟨_, _, h, rfl, fun _ => rfl, fun _ => rfl⟩
  | ftCount syms =>
    rcases execFtCount_cases syms s with ⟨t, -, h⟩ | ⟨j, -, -, h⟩ <;> exact ⟨_, _, h, rfl, fun _ => rfl, fun _ => rfl⟩
  | ftLoad entries =>
    rcases execFtLoad_cases entries s with ⟨-, h⟩ | ⟨trap, -, h⟩ <;> exact ⟨_, _, h, rfl, fun _ => rfl, fun _ => rfl⟩
  | htBuild =>
    rcases execHtBuild_cases s with ⟨t, -, h⟩ | ⟨trap, -, h⟩ <;> exact ⟨_, _, h, rfl, fun _ => rfl, fun _ => rfl⟩
  | cdEncode syms =>
    rcases execCdEncode_cases syms s with ⟨out, -, h⟩ | ⟨trap, -, h⟩ <;>
      exact ⟨_, _, h, rfl, fun _ => rfl, fun _ => rfl⟩
  | bbLen => exact ⟨_, _, rfl, rfl, by simp [Instr.opcode], fun _ => rfl⟩
  | bbPack | ftRead => exact ⟨_, _, rfl, rfl, fun _ => rfl, by simp [Instr.opcode]⟩
  | htGetcode arg =>
    rcases execHtGetcode_cases arg s with ⟨-, h⟩ | ⟨-, -, h⟩ | ⟨c, -, -, h⟩ <;>
      exact ⟨_, _, h, rfl, fun _ => rfl, by simp [Instr.opcode]⟩
  | cdDecode =>
    rcases execCdDecode_cases s with ⟨out, -, h⟩ | ⟨trap, -, h⟩ <;>
      exact ⟨_, _, h, rfl, fun _ => rfl, by simp [Instr.opcode]⟩
  | sysRdsr index =>
    simp only [exec, execSysRdsr]
    split <;> exact ⟨_, _, rfl, rfl, by simp [Instr.opcode], fun _ => rfl⟩
  | htDescend h b =>
    simp only [exec, execHtDescend]
    split <;> exact ⟨_, _, rfl, rfl, by simp [Instr.opcode], fun _ => rfl⟩
  | htIsleaf h =>
    simp only [exec, execHtIsleaf]
    split <;> exact ⟨_, _, rfl, rfl, by simp [Instr.opcode], fun _ => rfl⟩
  | htNode h =>
    obtain ⟨t, r, hx, -, hr, -⟩ := exec_answers (.htNode h) s
    exact ⟨t, r, hx, hr, by simp [Instr.opcode], by simp [Instr.opcode]⟩

/-- Settles O14: `INFO`, and `VAL` and `Q` of a fault, go by the response's status; the rest goes by the command. -/
theorem responseCarriesOnlyTheResultsOfItsCommand : Obligations.ResponseCarriesOnlyTheResultsOfItsCommand := by
  intro i s
  obtain ⟨t, r, hx, hr, hval, hq⟩ := exec_results i s
  obtain ⟨hinfo, hfault⟩ := exec_response_of_status hx hr
  exact ⟨t, r, hx, hr, hinfo, hfault, hval, hq⟩

end Sys2Proof.Machine
end

section
/-! Command sequences (R66): O56. -/

namespace Sys2Proof.Machine

open Sys2Proof

variable {i : Instr} {pre rest : List Instr} {s t u : State}

/-- The latest response after a command that ended OK. -/
@[simp] theorem State.lastStatus_afterOk (s : State) (val : Nat) (q : List Elem) :
    (s.afterOk val q).lastStatus = some .ok := by simp [State.lastStatus, State.afterOk]

/-- The latest response after a command that ended with a fault. -/
@[simp] theorem State.lastStatus_afterFault (s : State) (kind : Status) (info : Nat) :
    (s.afterFault kind info).lastStatus = some kind := by simp [State.lastStatus, State.afterFault]

/-- R66: after a response that is OK the sequence goes on. -/
theorem runSequence_cons_of_ok (h : exec i s = .next u) (hu : u.lastStatus = some .ok) :
    runSequence (i :: rest) s = runSequence rest u := by
  simp only [runSequence, h, hu, if_true]

/-- R66: at the first response that is not OK the sequence stops. -/
theorem runSequence_cons_of_not_ok (h : exec i s = .next u) (hu : u.lastStatus ≠ some .ok) :
    runSequence (i :: rest) s = .next u := by
  simp only [runSequence, h, hu, if_false]

/-- R66: a sequence whose last response is OK was OK at its first command too. -/
theorem runSequence_cons_ok (h : runSequence (i :: rest) s = .next t) (ht : t.lastStatus = some .ok) :
    ∃ u, exec i s = .next u ∧ u.lastStatus = some .ok ∧ runSequence rest u = .next t := by
  obtain ⟨u, -, hx, -⟩ := exec_answers i s
  by_cases hu : u.lastStatus = some .ok
  · exact ⟨u, hx, hu, (runSequence_cons_of_ok hx hu).symm.trans h⟩
  · obtain rfl := Host.Outcome.next.inj ((runSequence_cons_of_not_ok hx hu).symm.trans h)
    exact absurd ht hu

/-- R66: after a sequence that ended OK a longer one goes on with what follows. -/
theorem runSequence_append (h : runSequence pre s = .next t) (hok : pre = [] ∨ t.lastStatus = some .ok) :
    runSequence (pre ++ rest) s = runSequence rest t := by
  induction pre generalizing s with
  | nil => exact Host.Outcome.next.inj h ▸ rfl
  | cons i pre ih =>
    have ht : t.lastStatus = some .ok := hok.resolve_left (List.cons_ne_nil _ _)
    obtain ⟨u, hx, hu, hrest⟩ := runSequence_cons_ok h ht
    calc runSequence (i :: (pre ++ rest)) s = runSequence (pre ++ rest) u := runSequence_cons_of_ok hx hu
      _ = runSequence rest t := ih hrest (.inr ht)

/-- A sequence of one command is that command, whatever its response. -/
theorem runSequence_singleton (i : Instr) (s : State) : runSequence [i] s = exec i s := by
  obtain ⟨u, -, hx, -⟩ := exec_answers i s
  simp [runSequence, hx]

/-- Settles O56: the expansions are R66's, and a longer sequence goes on at the state its beginning ended OK in. -/
theorem sequenceStopsAtTheFirstFailure : Obligations.SequenceStopsAtTheFirstFailure := by
  refine ⟨runSequence_singleton _, fun _ _ => rfl, fun _ _ _ _ => rfl, fun pre post i s t u hpre hok hx => ?_⟩
  rw [runSequence_append hpre hok]
  exact ⟨runSequence_cons_of_ok hx, runSequence_cons_of_not_ok hx⟩

end Sys2Proof.Machine
end

section
/-! What FT_COUNT counts (R86), and when it does not fault. -/

namespace Sys2Proof.Machine

open Sys2Proof

/-- A new symbol is one distinct symbol more. -/
theorem dedup_length_append_new {syms : List Symbol} {x : Symbol} (hx : x ∉ syms) :
    (syms ++ [x]).dedup.length = syms.dedup.length + 1 := by
  have hunion : (syms ++ [x]).toFinset = insert x syms.toFinset := by ext y; simp
  rw [← List.card_toFinset, ← List.card_toFinset, hunion, Finset.card_insert_of_notMem (by simpa using hx)]

/-- An input has no less distinct symbols than its beginning. -/
theorem dedup_length_le_append (syms rest : List Symbol) : syms.dedup.length ≤ (syms ++ rest).dedup.length := by
  rw [← List.card_toFinset, ← List.card_toFinset, List.toFinset_append]
  exact Finset.card_le_card Finset.subset_union_left

/-- R86, result: `t` has one entry for every symbol of `syms`, in order of first occurrence, with its number of occurrences. -/
structure CountsOf (syms : List Symbol) (t : List Entry) : Prop where
  symbols : ∀ x, x ∈ t.map (·.sym) ↔ x ∈ syms
  counts : ∀ e ∈ t, e.cnt = syms.count e.sym
  inOrder : (t.map (·.sym)).Pairwise fun x y => syms.idxOf x < syms.idxOf y

namespace CountsOf

variable {p : Params} {syms rest : List Symbol} {i : Nat} {t t' : List Entry} {x : Symbol}

/-- Nothing has been counted yet. -/
theorem nil : CountsOf [] [] := ⟨by simp, by simp, by simp⟩

/-- Symbols in order of first occurrence are distinct. -/
theorem distinct (h : CountsOf syms t) : (t.map (·.sym)).Nodup :=
  h.inOrder.imp fun hlt heq => absurd (heq ▸ hlt) (lt_irrefl _)

/-- The table's symbols are the input's distinct symbols, in another order. -/
theorem perm_dedup (h : CountsOf syms t) : (t.map (·.sym)).Perm syms.dedup :=
  (List.perm_ext_iff_of_nodup h.distinct syms.nodup_dedup).mpr fun x => by rw [h.symbols, List.mem_dedup]

/-- The table has as many entries as the input has distinct symbols. -/
theorem length_eq (h : CountsOf syms t) : t.length = syms.dedup.length := by
  simpa using h.perm_dedup.length_eq

/-- The counts add up to the length of the input. -/
theorem sum_cnt (h : CountsOf syms t) : (t.map (·.cnt)).sum = syms.length :=
  calc (t.map (·.cnt)).sum = ((t.map (·.sym)).map fun x => syms.count x).sum := by
        rw [List.map_map]
        exact congrArg _ (List.map_congr_left h.counts)
    _ = (syms.dedup.map fun x => syms.count x).sum := (h.perm_dedup.map _).sum_eq
    _ = syms.length := List.sum_map_count_dedup_eq_length syms

/-- The order of first occurrence is not changed by what follows. -/
theorem inOrder_append (h : CountsOf syms t) (more : List Symbol) :
    (t.map (·.sym)).Pairwise fun x y => (syms ++ more).idxOf x < (syms ++ more).idxOf y :=
  h.inOrder.imp_of_mem fun hx hy hxy => by
    rwa [List.idxOf_append_of_mem ((h.symbols _).mp hx), List.idxOf_append_of_mem ((h.symbols _).mp hy)]

/-- R86: a symbol that has an entry is counted there. -/
theorem increment (h : CountsOf syms t) (hx : x ∈ syms) : CountsOf (syms ++ [x]) (incrementEntry t x) where
  symbols y := by
    rw [incrementEntry_map_sym, h.symbols]
    simp only [List.mem_append, List.mem_singleton]
    exact ⟨.inl, fun hy => hy.elim id (· ▸ hx)⟩
  counts e he := by
    obtain ⟨e₀, h₀, rfl⟩ := mem_incrementEntry.mp he
    have hcnt := h.counts e₀ h₀
    split
    · next hs => simpa [hs] using hcnt
    · next hs => simpa [List.count_singleton, Ne.symm hs] using hcnt
  inOrder := by
    rw [incrementEntry_map_sym]
    exact h.inOrder_append [x]

/-- R86: a new symbol is entered at the end, with count 1. -/
theorem append_new (h : CountsOf syms t) (hx : x ∉ syms) : CountsOf (syms ++ [x]) (t ++ [⟨x, 1⟩]) where
  symbols y := by simp [← h.symbols y]
  counts e he := by
    rcases List.mem_append.mp he with he | he
    · have hne : x ≠ e.sym := fun heq => hx (heq ▸ (h.symbols _).mp (List.mem_map_of_mem he))
      simpa [List.count_singleton, hne] using h.counts e he
    · obtain rfl := List.mem_singleton.mp he
      simp [List.count_eq_zero.mpr hx]
  inOrder := by
    rw [List.map_append, List.pairwise_append]
    refine ⟨h.inOrder_append [x], by simp, fun y hy z hz => ?_⟩
    obtain rfl : z = x := by simpa using hz
    have hy' := (h.symbols y).mp hy
    rw [List.idxOf_append_of_mem hy', List.idxOf_append_of_notMem hx]
    exact Nat.lt_add_right _ (List.idxOf_lt_length_of_mem hy')

/-- R86: one iteration counts its symbol. -/
theorem of_countSymbol (h : CountsOf syms t) (hc : countSymbol p t x = some t') : CountsOf (syms ++ [x]) t' := by
  rcases countSymbol_cases p t x with ⟨e, he, -, h'⟩ | ⟨hx, -, -, h'⟩ | ⟨-, h'⟩
  · obtain ⟨hmem, rfl⟩ := findEntry_eq_some he
    exact Option.some.inj (h'.symm.trans hc) ▸ h.increment ((h.symbols _).mp (List.mem_map_of_mem hmem))
  · exact Option.some.inj (h'.symm.trans hc) ▸ h.append_new (mt (h.symbols x).mpr hx)
  · cases h'.symm.trans hc

/-- R86, result: FT_COUNT's loop counts its input. -/
theorem of_countLoop (h : CountsOf syms t) (hc : countLoop p rest i t = .ok t') : CountsOf (syms ++ rest) t' := by
  induction rest generalizing syms i t with
  | nil =>
    obtain rfl := Except.ok.inj hc
    simpa using h
  | cons x rest ih =>
    simp only [countLoop] at hc
    split at hc
    · next t₁ h₁ => simpa using ih (h.of_countSymbol h₁) hc
    · cases hc

/-- R86, R131: a symbol whose entry and count fit is counted. -/
theorem countSymbol_isSome (h : CountsOf syms t) (hk : fits p.kMax (syms ++ [x]).dedup.length = true)
    (hc : fits p.cntMax ((syms ++ [x]).count x) = true) : ∃ t', countSymbol p t x = some t' := by
  rcases countSymbol_cases p t x with ⟨e, -, -, h'⟩ | ⟨-, -, -, h'⟩ | ⟨hfull, -⟩
  · exact ⟨_, h'⟩
  · exact ⟨_, h'⟩
  · exfalso
    have hcount : (syms ++ [x]).count x = syms.count x + 1 := by simp
    rw [hcount] at hc
    rcases hfull with ⟨e, he, hb⟩ | ⟨hx, hb | hf⟩
    · obtain ⟨hmem, rfl⟩ := findEntry_eq_some he
      rw [atBound_iff, h.counts e hmem] at hb
      simp [hb] at hc
    · rw [h.symbols] at hx
      rw [atBound_iff, h.length_eq] at hb
      simp [hb, dedup_length_append_new hx] at hk
    · simp [fits_mono (Nat.le_add_left 1 _) hc] at hf

/-- R86, R131: FT_COUNT's loop does not fault when the distinct symbols fit `K_MAX` and every count fits `CNT_MAX`. -/
theorem countLoop_isOk (h : CountsOf syms t) (hk : fits p.kMax (syms ++ rest).dedup.length = true)
    (hc : ∀ x ∈ rest, fits p.cntMax ((syms ++ rest).count x) = true) : ∃ t', countLoop p rest i t = .ok t' := by
  induction rest generalizing syms i t with
  | nil => exact ⟨t, rfl⟩
  | cons x rest ih =>
    have happend : syms ++ x :: rest = (syms ++ [x]) ++ rest := by simp
    rw [happend] at hk hc
    obtain ⟨t₁, h₁⟩ : ∃ t₁, countSymbol p t x = some t₁ :=
      h.countSymbol_isSome (fits_mono (dedup_length_le_append _ _) hk)
        (fits_mono (by simp) (hc x List.mem_cons_self))
    simp only [countLoop, h₁]
    exact ih (h.of_countSymbol h₁) hk fun y hy => hc y (List.mem_cons_of_mem _ hy)

end CountsOf

/-- R86: what FT_COUNT's table holds. -/
theorem countTable_countsOf {p : Params} {syms : List Symbol} {t : List Entry} (h : countTable p syms = .ok t) :
    CountsOf syms t := CountsOf.nil.of_countLoop h

/-- R86, R131: an input that fits is counted. -/
theorem countTable_isOk {p : Params} {syms : List Symbol} (hk : fits p.kMax syms.dedup.length = true)
    (hc : ∀ x ∈ syms, fits p.cntMax (syms.count x) = true) : ∃ t, countTable p syms = .ok t :=
  CountsOf.nil.countLoop_isOk hk hc

end Sys2Proof.Machine
end

section
/-! When FT_LOAD does not fault (R87). -/

namespace Sys2Proof.Machine

open Sys2Proof

variable {p : Params} {seen entries : List Entry}

/-- The beginning of a table that meets R31 meets it. -/
theorem FtInv.of_append (h : FtInv p (seen ++ entries)) : FtInv p seen where
  distinct := (List.nodup_append.mp (List.map_append ▸ h.distinct)).1
  positive e he := h.positive e (List.mem_append_left _ he)
  countFits e he := h.countFits e (List.mem_append_left _ he)
  lengthFits := fits_mono (by simp) h.lengthFits

/-- R87: an entry that keeps R31 gives no trap. -/
theorem loadFault_of_inv {e : Entry} (h : FtInv p (seen ++ [e])) :
    loadFault p (seen.map (·.sym)) seen.length e = none := by
  have hmem : e ∈ seen ++ [e] := by simp
  have hpos := h.positive e hmem
  have hnew : e.sym ∉ seen.map (·.sym) := by
    have hd := h.distinct
    rw [List.map_append, List.nodup_append] at hd
    exact fun hs => hd.2.2 _ hs _ (by simp) rfl
  have hlen : fits p.kMax (seen.length + 1) = true := by simpa using h.lengthFits
  have hcnt := h.countFits e hmem
  rcases loadFault_cases p (seen.map (·.sym)) seen.length e with ⟨hbad, -⟩ | ⟨-, -, hbad, -⟩ | ⟨-, -, -, -, hf⟩
  · exact absurd hbad (by simp [hnew]; omega)
  · simp [hlen, hcnt] at hbad
  · exact hf

/-- R87: a table that meets R31 gives no trap. -/
theorem loadLoop_of_inv (h : FtInv p (seen ++ entries)) :
    loadLoop p entries seen.length (seen.map (·.sym)) = none := by
  induction entries generalizing seen with
  | nil => rfl
  | cons e rest ih =>
    have h' : FtInv p ((seen ++ [e]) ++ rest) := by simpa using h
    simp only [loadLoop, loadFault_of_inv h'.of_append]
    simpa using ih h'

end Sys2Proof.Machine
end

section
/-! When HT_BUILD does not fault (R93, R99), and that its tree does not depend on the capacity (R108). -/

namespace Sys2Proof.Machine

open Sys2Proof

variable {p : Params} {ft : List Entry} {t : CodeTree}

/-- The two first nodes of the sorted list have at most the frequency of all of them. -/
theorem Merging.fits_merge {cntMax : Option Nat} {nodes : List Node} {a b : Handle} {rest : List Handle}
    (hm : Merging cntMax ft nodes (a :: b :: rest)) (hf : fits cntMax (ft.map (·.cnt)).sum = true) :
    fits cntMax (freqAt nodes a + freqAt nodes b) = true := by
  have htotal := hm.total
  simp only [List.map_cons, List.sum_cons] at htotal
  exact fits_mono (by omega) hf

/-- R93, R131: the loop does not fault when the counts together fit `CNT_MAX`. -/
theorem mergeLoop_isOk {cntMax : Option Nat} {k : Nat} {nodes : List Node} {w : List Handle}
    (hm : Merging cntMax ft nodes w) (hf : fits cntMax (ft.map (·.cnt)).sum = true) :
    ∃ t, mergeLoop cntMax k nodes w = .ok t := by
  induction k generalizing nodes w with
  | zero => exact ⟨_, rfl⟩
  | succ k ih =>
    match hs : sortByFreq nodes w with
    | a :: b :: rest =>
      have hm' := hm.perm (hs ▸ sortByFreq_perm nodes w)
      rw [mergeLoop_succ hs, if_pos (hm'.fits_merge hf)]
      exact ih (hm'.merge (hm'.fits_merge hf))
    | [] | [_] => exact ⟨_, mergeLoop_of_length_le_one _ (by rw [← sortByFreq_length nodes w, hs]; simp)⟩

/-- R93, R98, R99: only a one-entry table or a capacity makes HT_BUILD fault. -/
theorem buildTree_isOk (hft : FtInv p ft) (h1 : ft.length ≠ 1) (hf : fits p.cntMax (ft.map (·.cnt)).sum = true) :
    ∃ t, buildTree p.cntMax ft = .ok t := by
  match ft with
  | [] => exact ⟨_, rfl⟩
  | [_] => exact absurd rfl h1
  | _ :: _ :: _ => exact mergeLoop_isOk (merging_leavesOf hft (by simp)) hf

/-- R100: from a table that is not empty the tree has the built shape, with the table's symbols. -/
theorem buildTree_built (hft : FtInv p ft) (hne : ft ≠ []) (h : buildTree p.cntMax ft = .ok t) :
    t.Built p.cntMax ft.length ∧ t.symbols = ft.map (·.sym) := by
  refine (buildTree_shape hft h).resolve_left ?_
  rintro rfl
  match ft with
  | [] => exact hne rfl
  | [_] => cases h
  | e :: e' :: rest => exact absurd (mergeLoop_prefix h).length_le (by simp [CodeTree.empty])

/-- R93: a loop that does not fault makes what the unbounded loop makes. -/
theorem mergeLoop_unbounded {cntMax : Option Nat} {k : Nat} {nodes : List Node} {w : List Handle}
    (h : mergeLoop cntMax k nodes w = .ok t) : mergeLoop none k nodes w = .ok t := by
  induction k generalizing nodes w with
  | zero => exact h
  | succ k ih =>
    match hs : sortByFreq nodes w with
    | a :: b :: rest =>
      rw [mergeLoop_succ hs] at h ⊢
      split at h
      · exact ih h
      · cases h
    | [] | [_] =>
      have hlen : w.length ≤ 1 := by rw [← sortByFreq_length nodes w, hs]; simp
      rwa [mergeLoop_of_length_le_one _ hlen] at h ⊢

/-- R93, R108: a capacity only ever turns the tree into a fault. -/
theorem buildTree_unbounded {cntMax : Option Nat} (h : buildTree cntMax ft = .ok t) : buildTree none ft = .ok t := by
  match ft with
  | [] => exact h
  | [_] => cases h
  | _ :: _ :: _ => exact mergeLoop_unbounded h

end Sys2Proof.Machine
end

section
/-! The codes of a built tree (R29, R67, R101): every leaf is reached from the root, within `k - 1` bits. -/

namespace Sys2Proof.Machine

open Sys2Proof

/-- The symbols of a tree are those of its leaves. -/
theorem mem_symbols {t : CodeTree} {x : Symbol} : x ∈ t.symbols ↔ ∃ h, t.leafSymbol h = some x := by
  simp only [CodeTree.symbols, List.mem_filterMap, CodeTree.leafSymbol_eq_some]
  constructor
  · rintro ⟨n, hn, hx⟩
    obtain ⟨h, hh⟩ := List.mem_iff_getElem?.mp hn
    cases n with
    | leaf s f => exact ⟨h, f, by simpa [← Option.some.inj hx] using hh⟩
    | internal l r f => cases hx
  · rintro ⟨h, f, hh⟩
    exact ⟨_, List.mem_of_getElem? hh, rfl⟩

namespace CodeTree.Built

variable {cntMax : Option Nat} {t : CodeTree} {k h c : Nat} {bits : List Bit}

/-- A node with children is an internal one of R29's shape, so it stands after the leaves and after its children. -/
theorem child_lt (ht : t.Built cntMax k) {l r f : Nat} (hn : t.node[h]? = some (.internal l r f)) :
    k ≤ h ∧ h < 2 * k - 1 ∧ l < h ∧ r < h := by
  have hh : h < 2 * k - 1 := ht.count ▸ (List.getElem?_eq_some_iff.mp hn).1
  have hk : k ≤ h := by
    by_contra hlt
    have hleaf := ht.leaves h (Nat.lt_of_not_le hlt)
    simp [CodeTree.isLeafAt, hn, Node.isLeaf] at hleaf
  obtain ⟨l', r', f', hn', hl, hr, -, -⟩ := internalOk_iff.mp (ht.internals h hh hk)
  cases hn.symm.trans hn'
  exact ⟨hk, hh, hl, hr⟩

/-- A walk of one bit or more starts at an internal node, and its handles decrease. -/
theorem walk_length (ht : t.Built cntMax k) (hw : t.walk h bits = some c) (hne : bits ≠ []) :
    k - 1 + bits.length ≤ h := by
  induction bits generalizing h with
  | nil => exact absurd rfl hne
  | cons b bits ih =>
    simp only [CodeTree.walk] at hw
    split at hw
    · next h' hc =>
      obtain ⟨h₀, l, r, f, heq, hn, rfl⟩ := CodeTree.child_eq_some.mp hc
      cases heq
      obtain ⟨hk, -, hl, hr⟩ := ht.child_lt hn
      have hchild : (if b then r else l) < h := by split <;> assumption
      have hk2 := ht.twoEntries
      rcases eq_or_ne bits [] with rfl | hbits
      · simp; omega
      · have hstep : k - 1 + bits.length < h := Nat.lt_of_le_of_lt (ih hw hbits) hchild
        simp; omega
    · cases hw

/-- R107: no code is longer than `k - 1` bits. -/
theorem isCode_length_le (ht : t.Built cntMax k) {x : Symbol} (hx : t.IsCode x bits) : bits.length ≤ k - 1 := by
  obtain ⟨r, h, hr, hw, -⟩ := hx
  obtain rfl := Option.some.inj (ht.rootLast.symm.trans hr)
  rcases eq_or_ne bits [] with rfl | hne
  · simp
  · have := ht.walk_length hw hne
    omega

/-- R107: the root is no leaf, so no code is empty. -/
theorem isCode_ne_nil (ht : t.Built cntMax k) {x : Symbol} (hx : t.IsCode x bits) : bits ≠ [] := by
  rintro rfl
  obtain ⟨r, h, hr, hw, hl⟩ := hx
  obtain rfl := Option.some.inj (ht.rootLast.symm.trans hr)
  obtain rfl := Option.some.inj hw
  obtain ⟨f, hf⟩ := CodeTree.leafSymbol_eq_some.mp hl
  have hk := ht.twoEntries
  obtain ⟨l, r, f', hn, -⟩ := internalOk_iff.mp (ht.internals (2 * k - 2) (by omega) (by omega))
  cases hf.symm.trans hn

/-- R29: a node other than the root has a parent, which stands after it. -/
theorem exists_parent (ht : t.Built cntMax k) (hh : h < 2 * k - 2) :
    ∃ (q : Nat) (b : Bit), h < q ∧ q ≤ 2 * k - 2 ∧ t.child (some q) b = some h := by
  have hmem : h ∈ t.childRefs := List.count_pos_iff.mp (by rw [ht.oneParent h hh]; exact Nat.one_pos)
  obtain ⟨q, l, r, f, hn, hlr⟩ := mem_childRefs.mp hmem
  obtain ⟨-, hq, hl, hr⟩ := ht.child_lt hn
  rcases hlr with rfl | rfl
  · exact ⟨q, false, hl, by omega, CodeTree.child_eq_some.mpr ⟨q, _, _, f, rfl, hn, rfl⟩⟩
  · exact ⟨q, true, hr, by omega, CodeTree.child_eq_some.mpr ⟨q, _, _, f, rfl, hn, rfl⟩⟩

/-- R100: every node is reached from the root. -/
theorem exists_walk (ht : t.Built cntMax k) (hh : h ≤ 2 * k - 2) : ∃ bits, t.walk (2 * k - 2) bits = some h := by
  induction hd : 2 * k - 2 - h using Nat.strong_induction_on generalizing h with
  | _ d ih =>
    rcases Nat.eq_or_lt_of_le hh with rfl | hlt
    · exact ⟨[], rfl⟩
    · obtain ⟨q, b, hq, hq', hc⟩ := ht.exists_parent hlt
      obtain ⟨bits, hw⟩ := ih (2 * k - 2 - q) (by omega) hq' rfl
      exact ⟨bits ++ [b], by simp [CodeTree.walk_append, hw, CodeTree.walk, hc]⟩

/-- R107: every symbol has a code. -/
theorem exists_isCode (ht : t.Built cntMax k) {x : Symbol} (hx : x ∈ t.symbols) : ∃ c, t.IsCode x c := by
  obtain ⟨h, hl⟩ := mem_symbols.mp hx
  obtain ⟨f, hn⟩ := CodeTree.leafSymbol_eq_some.mp hl
  have hh : h < 2 * k - 1 := ht.count ▸ (List.getElem?_eq_some_iff.mp hn).1
  obtain ⟨bits, hw⟩ := ht.exists_walk (Nat.le_sub_one_of_lt hh)
  exact ⟨bits, _, h, ht.rootLast, hw, hl⟩

end CodeTree.Built

/-- R101: the search finds a leaf that is reached in less steps than it may take. -/
theorem findCode_isSome {t : CodeTree} {x : Symbol} {depth : Nat} {h c : Handle} {bits path : List Bit}
    (hw : t.walk h bits = some c) (hl : t.leafSymbol c = some x) (hd : bits.length < depth) :
    (findCode t.node x depth h path).isSome = true := by
  induction depth generalizing h bits path with
  | zero => omega
  | succ depth ih =>
    cases bits with
    | nil =>
      obtain rfl := Option.some.inj hw
      obtain ⟨f, hn⟩ := CodeTree.leafSymbol_eq_some.mp hl
      simp [findCode, hn]
    | cons b bits =>
      simp only [CodeTree.walk] at hw
      split at hw
      · next h' hc =>
        obtain ⟨h₀, l, r, f, heq, hn, rfl⟩ := CodeTree.child_eq_some.mp hc
        cases heq
        have hrest : ∀ path', (findCode t.node x depth (if b then r else l) path').isSome = true :=
          fun path' => ih hw (by simpa using hd)
        simp only [findCode, hn]
        cases hleft : findCode t.node x depth l (path ++ [false]) with
        | some c => rfl
        | none =>
          cases b with
          | false => simpa [hleft] using hrest (path ++ [false])
          | true => exact hrest (path ++ [true])
      · cases hw

/-- R101: what the lookup answers is a code of the symbol. -/
theorem codeOf_isCode {t : CodeTree} {x : Symbol} {c : List Bit} (h : codeOf t x = some c) : t.IsCode x c := by
  cases hr : t.root with
  | none => simp [codeOf, hr] at h
  | some r =>
    simp only [codeOf, hr] at h
    obtain ⟨bits, h', rfl, hw, hl⟩ := findCode_walk h
    exact ⟨r, h', hr, hw, hl⟩

/-- R101: in a built tree the lookup answers a code of every symbol. -/
theorem CodeTree.Built.exists_codeOf {cntMax : Option Nat} {t : CodeTree} {k : Nat} (ht : t.Built cntMax k)
    {x : Symbol} (hx : x ∈ t.symbols) : ∃ c, codeOf t x = some c := by
  obtain ⟨bits, hcode⟩ := ht.exists_isCode hx
  have hlen := ht.isCode_length_le hcode
  obtain ⟨r, h, hr, hw, hl⟩ := hcode
  have hk := ht.twoEntries
  simp only [codeOf, hr]
  exact Option.isSome_iff_exists.mp (findCode_isSome hw hl (by rw [ht.count]; omega))

end Sys2Proof.Machine
end

section
/-! CD_ENCODE and CD_DECODE on the codes of a tree (R111, R117), and BB_PACK and BB_UNPACK (R79, R80). -/

namespace Sys2Proof.Machine

open Sys2Proof

variable {bitsMax : Option Nat} {t : CodeTree} {syms : List Symbol} {codes : List (List Bit)} {i start : Nat}
  {out out' : List Bit}

/-- `codes` are what the lookup answers for `syms`, one for each (R111). -/
abbrev CodesOf (t : CodeTree) (syms : List Symbol) (codes : List (List Bit)) : Prop :=
  List.Forall₂ (fun x c => codeOf t x = some c) syms codes

/-- R111: what CD_ENCODE's loop appends are the codes of its input. -/
theorem encodeLoop_codes (h : encodeLoop bitsMax t syms i out = .ok out') :
    ∃ codes, CodesOf t syms codes ∧ out' = out ++ codes.flatten := by
  induction syms generalizing i out with
  | nil =>
    obtain rfl := Except.ok.inj h
    exact ⟨[], .nil, by simp⟩
  | cons x rest ih =>
    simp only [encodeLoop] at h
    split at h
    · cases h
    · next c hc =>
      split at h
      · obtain ⟨codes, hcodes, rfl⟩ := ih h
        exact ⟨c :: codes, .cons hc hcodes, by simp⟩
      · cases h

/-- R111, R131: CD_ENCODE's loop does not fault when every symbol has a code and the codes fit. -/
theorem encodeLoop_of_codes (hcodes : CodesOf t syms codes)
    (hf : fits bitsMax (out.length + codes.flatten.length) = true) :
    encodeLoop bitsMax t syms i out = .ok (out ++ codes.flatten) := by
  induction hcodes generalizing i out with
  | nil => simp [encodeLoop]
  | @cons x c syms codes hc _ ih =>
    rw [List.flatten_cons, List.length_append, ← Nat.add_assoc] at hf
    simp only [encodeLoop, hc, fits_mono (Nat.le_add_right _ _) hf, if_true]
    rw [ih (by simpa using hf)]
    simp

/-- R117: the bits of one code, read from where its walk starts, emit its symbol and lead back to the root. -/
theorem decodeLoop_walk {h c : Handle} {x : Symbol} {bits tail : List Bit} {done : List Symbol}
    (hw : t.walk h bits = some c) (hl : t.leafSymbol c = some x) (hne : bits ≠ []) :
    decodeLoop t (bits ++ tail) i (some h) done start =
      decodeLoop t tail (i + bits.length) t.root (done ++ [x]) (i + bits.length) := by
  induction bits generalizing h i with
  | nil => exact absurd rfl hne
  | cons b bits ih =>
    simp only [CodeTree.walk] at hw
    split at hw
    · next h' hc =>
      cases bits with
      | nil =>
        obtain rfl := Option.some.inj hw
        exact decodeLoop_cons_leaf hc hl
      | cons b' bits =>
        have hinner : t.leafSymbol h' = none := by
          by_contra hsome
          obtain ⟨y, hy⟩ := Option.ne_none_iff_exists'.mp hsome
          simp [CodeTree.walk, CodeTree.child_of_leaf hy] at hw
        rw [List.cons_append, decodeLoop_cons_internal hc hinner, ih hw (List.cons_ne_nil _ _)]
        simp only [List.length_cons, show i + 1 + (bits.length + 1) = i + (bits.length + 1 + 1) by omega]
    · cases hw

/-- R117: the bits of codes one after another emit their symbols, where no code is empty. -/
theorem decodeLoop_codes {tail : List Bit} {done : List Symbol} (hne : ∀ x, ¬ t.IsCode x [])
    (hcodes : List.Forall₂ t.IsCode syms codes) :
    decodeLoop t (codes.flatten ++ tail) i t.root done i =
      decodeLoop t tail (i + codes.flatten.length) t.root (done ++ syms) (i + codes.flatten.length) := by
  induction hcodes generalizing i done with
  | nil => simp
  | @cons x c syms codes hc _ ih =>
    have hc' : c ≠ [] := fun h => hne x (h ▸ hc)
    obtain ⟨r, h, hr, hw, hl⟩ := hc
    rw [List.flatten_cons, List.append_assoc]
    calc decodeLoop t (c ++ (codes.flatten ++ tail)) i t.root done i
        = decodeLoop t (codes.flatten ++ tail) (i + c.length) t.root (done ++ [x]) (i + c.length) := by
          conv_lhs => rw [hr]
          exact decodeLoop_walk hw hl hc'
      _ = _ := by rw [ih]; simp [Nat.add_assoc]

/-- R117: a buffer that is a concatenation of codes decodes to their symbols. -/
theorem decodeBits_codes (hne : ∀ x, ¬ t.IsCode x []) (hcodes : List.Forall₂ t.IsCode syms codes) :
    decodeBits t codes.flatten = .ok syms := by
  have h := decodeLoop_codes (i := 0) (tail := []) (done := []) hne hcodes
  simpa [decodeBits, decodeLoop] using h

/-- R118: CD_DECODE undoes CD_ENCODE on a built tree. -/
theorem decodeBits_of_encodeLoop {cntMax : Option Nat} {k : Nat} (ht : t.Built cntMax k)
    (h : encodeLoop bitsMax t syms 0 [] = .ok out) : decodeBits t out = .ok syms := by
  obtain ⟨codes, hcodes, rfl⟩ := encodeLoop_codes h
  exact decodeBits_codes (fun x hx => ht.isCode_ne_nil hx rfl) (hcodes.imp fun _ _ hc => codeOf_isCode hc)

/-- R79, R80: unpacking the packed bytes with the exact count gives the bits back. -/
theorem unpackBits_packBits (bits : List Bit) : unpackBits bits.length (packBits bits) = bits := by
  refine List.ext_getElem (by simp) fun j hj hj' => ?_
  have hbyte : (packBits bits)[j / 8]? = some (packedByte bits (j / 8)) :=
    packBits_getElem? (by unfold ceil8; omega)
  have hidx : 8 * (j / 8) + j % 8 = j := by omega
  simp [unpackBits, unpackedBit, hbyte, packedByte_getLsbD bits _ (Nat.mod_lt j (by decide : 0 < 8)), hidx, hj']

end Sys2Proof.Machine
end

section
/-! The OK outcomes of the commands of COMPRESS and EXPAND, as rules of `exec`. -/

namespace Sys2Proof.Machine

open Sys2Proof

variable {s : State} {syms : List Symbol} {ft : List Entry} {tree : CodeTree} {out : List Bit}

/-- FT_COUNT's OK outcome (R86). -/
theorem exec_ftCount_of_ok (h : countTable s.params syms = .ok ft) :
    exec (.ftCount syms) s = .next ({ s with ft := ft }.afterOk 0 []) := by
  simp only [exec, execFtCount, h]; rfl

/-- FT_LOAD's OK outcome (R87). -/
theorem exec_ftLoad_of_inv (h : FtInv s.params ft) : exec (.ftLoad ft) s = .next ({ s with ft := ft }.afterOk 0 []) := by
  have hload : loadLoop s.params ft 0 [] = none := loadLoop_of_inv (seen := []) h
  simp only [exec, execFtLoad, hload]; rfl

/-- HT_BUILD's OK outcome (R93). -/
theorem exec_htBuild_of_ok (h : buildTree s.params.cntMax s.ft = .ok tree) :
    exec .htBuild s = .next ({ s with tree := tree }.afterOk 0 []) := by
  simp only [exec, execHtBuild, h]; rfl

/-- CD_ENCODE's OK outcome (R111). -/
theorem exec_cdEncode_of_ok (h : encodeLoop s.params.bitsMax s.tree syms 0 [] = .ok out) :
    exec (.cdEncode syms) s = .next ({ s with bitbuf := out }.afterOk 0 []) := by
  simp only [exec, execCdEncode, h]; rfl

/-- CD_DECODE's OK outcome (R117). -/
theorem exec_cdDecode_of_ok (h : decodeBits s.tree s.bitbuf = .ok syms) :
    exec .cdDecode s = .next (s.afterOk 0 (symElems syms)) := by
  simp only [exec, execCdDecode, h]; rfl

/-- R81: BB_UNPACK of what BB_PACK answered, with the exact count, restores the bits. -/
theorem exec_bbUnpack_packBits (h : fits s.params.bitsMax out.length = true) :
    exec (.bbUnpack out.length (packBits out)) s = .next ({ s with bitbuf := out }.afterOk 0 []) := by
  rcases execBbUnpack_cases out.length (packBits out) s with ⟨hlt, -⟩ | ⟨-, hf, -⟩ | ⟨-, -, hx⟩
  · simp at hlt
  · simp [h] at hf
  · rwa [unpackBits_packBits] at hx

/-- BB_PACK always answers OK (R79). -/
theorem exec_bbPack (s : State) : exec .bbPack s = .next (s.afterOk 0 (byteElems (packBits s.bitbuf))) := rfl

/-- BB_LEN always answers OK (R78). -/
theorem exec_bbLen (s : State) : exec .bbLen s = .next (s.afterOk s.bitbuf.length []) := rfl

end Sys2Proof.Machine
end

section
/-! COMPRESS and EXPAND (R66): O59 and O57. -/

namespace Sys2Proof.Machine

open Sys2Proof

section Runs

variable {s t : State} {syms : List Symbol} {ft : List Entry} {tree : CodeTree} {out : List Bit}

/-- `s` after a COMPRESS that ended OK with this table, tree and buffer: five responses, the last two with the packed bytes and the
bit count (R66). -/
def State.compressed (s : State) (ft : List Entry) (tree : CodeTree) (out : List Bit) : State :=
  { s with
    ft := ft, tree := tree, bitbuf := out, status := .ok, errinfo := 0
    responses := s.responses ++
      [⟨.ok, 0, 0, []⟩, ⟨.ok, 0, 0, []⟩, ⟨.ok, 0, 0, []⟩, ⟨.ok, 0, 0, byteElems (packBits out)⟩, ⟨.ok, 0, out.length, []⟩] }

/-- R66: COMPRESS ends OK when FT_COUNT, HT_BUILD and CD_ENCODE do. -/
theorem runPseudo_compress_of_ok (hft : countTable s.params syms = .ok ft)
    (htree : buildTree s.params.cntMax ft = .ok tree) (hout : encodeLoop s.params.bitsMax tree syms 0 [] = .ok out) :
    runPseudo (.compress syms) s = .next (s.compressed ft tree out) := by
  unfold runPseudo Pseudo.expansion
  rw [runSequence_cons_of_ok (exec_ftCount_of_ok hft) (State.lastStatus_afterOk ..),
    runSequence_cons_of_ok (exec_htBuild_of_ok htree) (State.lastStatus_afterOk ..),
    runSequence_cons_of_ok (exec_cdEncode_of_ok hout) (State.lastStatus_afterOk ..),
    runSequence_cons_of_ok (exec_bbPack _) (State.lastStatus_afterOk ..), runSequence_singleton, exec_bbLen]
  simp [State.compressed, State.afterOk, State.afterResponse]

/-- R66: a COMPRESS that ends OK is one whose FT_COUNT, HT_BUILD and CD_ENCODE ended OK. -/
theorem runPseudo_compress_ok (h : runPseudo (.compress syms) s = .next t) (ht : t.lastStatus = some .ok) :
    ∃ ft tree out, countTable s.params syms = .ok ft ∧ buildTree s.params.cntMax ft = .ok tree ∧
      encodeLoop s.params.bitsMax tree syms 0 [] = .ok out ∧ t = s.compressed ft tree out := by
  obtain ⟨s₁, h₁, hok₁, hrest₁⟩ := runSequence_cons_ok h ht
  obtain ⟨s₂, h₂, hok₂, hrest₂⟩ := runSequence_cons_ok hrest₁ ht
  obtain ⟨s₃, h₃, hok₃, -⟩ := runSequence_cons_ok hrest₂ ht
  rcases execFtCount_cases syms s with ⟨ft, hft, hx⟩ | ⟨j, -, -, hx⟩ <;>
    obtain rfl := Host.Outcome.next.inj (hx.symm.trans h₁)
  · rcases execHtBuild_cases ({ s with ft := ft }.afterOk 0 []) with ⟨tree, htree, hx⟩ | ⟨trap, htrap, hx⟩ <;>
      obtain rfl := Host.Outcome.next.inj (hx.symm.trans h₂)
    · rcases execCdEncode_cases syms ({ { s with ft := ft }.afterOk 0 [] with tree := tree }.afterOk 0 []) with
        ⟨out, hout, hx⟩ | ⟨trap, htrap, hx⟩ <;> obtain rfl := Host.Outcome.next.inj (hx.symm.trans h₃)
      · exact ⟨ft, tree, out, hft, htree, hout,
          Host.Outcome.next.inj (h.symm.trans (runPseudo_compress_of_ok hft htree hout))⟩
      · rcases (encodeLoop_error htrap).1 with hk | hk <;> simp [hk] at hok₃
    · rcases buildTree_error htrap with ⟨-, rfl⟩ | ⟨-, hk, -⟩
      · simp at hok₂
      · simp [hk] at hok₂
  · simp at hok₁

/-- R66: EXPAND of a table, a bit count and the packed bytes ends OK with the decoded symbols when the table and the bits fit. -/
theorem runPseudo_expand_of_ok (hft : FtInv s.params ft) (htree : buildTree s.params.cntMax ft = .ok tree)
    (hbits : fits s.params.bitsMax out.length = true) (hdec : decodeBits tree out = .ok syms) :
    ∃ v, runPseudo (.expand ft out.length (packBits out)) s = .next v ∧
      v.responses = s.responses ++ [⟨.ok, 0, 0, []⟩, ⟨.ok, 0, 0, []⟩, ⟨.ok, 0, 0, []⟩, ⟨.ok, 0, 0, symElems syms⟩] := by
  unfold runPseudo Pseudo.expansion
  rw [runSequence_cons_of_ok (exec_ftLoad_of_inv hft) (State.lastStatus_afterOk ..),
    runSequence_cons_of_ok (exec_htBuild_of_ok htree) (State.lastStatus_afterOk ..),
    runSequence_cons_of_ok (exec_bbUnpack_packBits ?fits) (State.lastStatus_afterOk ..), runSequence_singleton,
    exec_cdDecode_of_ok ?decodes]
  case fits => exact hbits
  case decodes => exact hdec
  exact ⟨_, rfl, by simp [State.afterOk]⟩

end Runs

/-- R107: an input of which every symbol has a code of at most `m` bits takes at most `m` bits for each symbol. -/
theorem codesOf_length_le {t : CodeTree} {syms : List Symbol} {codes : List (List Bit)} {m : Nat}
    (hcodes : CodesOf t syms codes) (hm : ∀ x c, codeOf t x = some c → c.length ≤ m) :
    codes.flatten.length ≤ syms.length * m := by
  induction hcodes with
  | nil => simp
  | @cons x c syms codes hc _ ih =>
    have := hm x c hc
    simp only [List.flatten_cons, List.length_append, List.length_cons, Nat.succ_mul]
    omega

/-- R101: symbols that each have a code have a list of codes. -/
theorem exists_codesOf {t : CodeTree} {syms : List Symbol} (h : ∀ x ∈ syms, ∃ c, codeOf t x = some c) :
    ∃ codes, CodesOf t syms codes := by
  induction syms with
  | nil => exact ⟨[], .nil⟩
  | cons x rest ih =>
    obtain ⟨c, hc⟩ := h x List.mem_cons_self
    obtain ⟨codes, hcodes⟩ := ih fun y hy => h y (List.mem_cons_of_mem _ hy)
    exact ⟨c :: codes, .cons hc hcodes⟩

/-- R107, R111: CD_ENCODE of the input the tree was built from ends OK when there is room for `k - 1` bits for each symbol. -/
theorem encodeLoop_isOk {p : Params} {syms : List Symbol} {ft : List Entry} {tree : CodeTree}
    (hft : countTable p syms = .ok ft) (htree : buildTree p.cntMax ft = .ok tree)
    (hbits : fits p.bitsMax (syms.length * (syms.dedup.length - 1)) = true) :
    ∃ out, encodeLoop p.bitsMax tree syms 0 [] = .ok out := by
  have hcounts := countTable_countsOf hft
  cases syms with
  | nil => exact ⟨[], rfl⟩
  | cons x rest =>
    have hne : ft ≠ [] := by
      rintro rfl
      simpa using hcounts.symbols x
    obtain ⟨hbuilt, hsyms⟩ := buildTree_built (countLoop_keeps_inv _ 0 (FtInv.nil _) hft) hne htree
    obtain ⟨codes, hcodes⟩ := exists_codesOf (t := tree) (syms := x :: rest) fun y hy =>
      hbuilt.exists_codeOf (hsyms ▸ (hcounts.symbols y).mpr hy)
    have hlen := codesOf_length_le hcodes fun y c hc => hbuilt.isCode_length_le (codeOf_isCode hc)
    rw [hcounts.length_eq] at hlen
    exact ⟨_, encodeLoop_of_codes hcodes (by simpa using fits_mono hlen hbits)⟩

/-- Settles O59: the table fits, so the tree is built; each code has less bits than there are distinct symbols, so the bits fit. -/
theorem compressEndsOkWhenTheCapacitiesFit : Obligations.CompressEndsOkWhenTheCapacitiesFit := by
  intro s syms h1 hk hc hb
  obtain ⟨ft, hft⟩ := countTable_isOk hk fun x _ => fits_mono List.count_le_length hc
  have hcounts := countTable_countsOf hft
  obtain ⟨tree, htree⟩ := buildTree_isOk (countLoop_keeps_inv _ 0 (FtInv.nil _) hft) (hcounts.length_eq ▸ h1)
    (hcounts.sum_cnt ▸ hc)
  obtain ⟨out, hout⟩ := encodeLoop_isOk hft htree hb
  exact ⟨_, _, runPseudo_compress_of_ok hft htree hout, rfl, rfl, by simp⟩

/-- Settles O57: the table has at least two entries and its counts add up to the input's length, so the same tree is
built again from it, and decoding undoes encoding. -/
theorem expandUndoesCompressOnAnotherInstance : Obligations.ExpandUndoesCompressOnAnotherInstance := by
  intro s u t syms h2 h hok hftu hcu hbu
  obtain ⟨ft, tree, out, hft, htree, hout, rfl⟩ := runPseudo_compress_ok h hok
  have hcounts := countTable_countsOf hft
  have hlen : 2 ≤ ft.length := hcounts.length_eq ▸ h2
  obtain ⟨hbuilt, -⟩ := buildTree_built (countLoop_keeps_inv _ 0 (FtInv.nil _) hft)
    (List.ne_nil_of_length_pos (by omega)) htree
  obtain ⟨tree', htree'⟩ := buildTree_isOk hftu (by simpa [State.compressed] using (by omega : ft.length ≠ 1))
    (hcounts.sum_cnt ▸ hcu)
  obtain rfl : tree = tree' :=
    Except.ok.inj ((buildTree_unbounded htree).symm.trans (buildTree_unbounded htree'))
  obtain ⟨v, hv, hresp⟩ := runPseudo_expand_of_ok hftu htree' hbu (decodeBits_of_encodeLoop hbuilt hout)
  exact ⟨packBits out, v, by simp [State.compressed, byteElems], hv, hresp⟩

end Sys2Proof.Machine
end

section
/-! Bits and bytes (R41 to R43, R79 to R82), as rules of the packed form. -/

namespace Sys2Proof.Machine

open Sys2Proof

variable {bits : List Bit} {bytes : List Byte} {i j k n : Nat} {y z : Byte}

/-- R41, R42: bit `k` of packed byte `j` is bit `8j + k` of the buffer, and 0 beyond its length. -/
theorem getLsbD_of_packBits (hy : (packBits bits)[j]? = some y) (hk : k < 8) :
    y.getLsbD k = (bits[8 * j + k]?).getD false := by
  have hj : j < ceil8 bits.length := by simpa using (List.getElem?_eq_some_iff.mp hy).1
  obtain rfl := Option.some.inj ((packBits_getElem? hj).symm.trans hy)
  exact packedByte_getLsbD bits j hk

/-- R42: every bit of the buffer has its place in the packed bytes. -/
theorem exists_packBits_of_getElem? {b : Bit} (hb : bits[i]? = some b) :
    ∃ y, (packBits bits)[i / 8]? = some y ∧ y.getLsbD (i % 8) = b := by
  have hi := (List.getElem?_eq_some_iff.mp hb).1
  have hy : (packBits bits)[i / 8]? = some (packedByte bits (i / 8)) := packBits_getElem? (by unfold ceil8; omega)
  have hidx : 8 * (i / 8) + i % 8 = i := by omega
  exact ⟨_, hy, by rw [getLsbD_of_packBits hy (by omega), hidx, hb]; rfl⟩

/-- R43: the padding bits are 0. -/
theorem getLsbD_of_packBits_padding (hy : (packBits bits)[j]? = some y) (hpad : bits.length ≤ 8 * j + k) :
    y.getLsbD k = false := by
  by_cases hk : k < 8
  · rw [getLsbD_of_packBits hy hk, List.getElem?_eq_none hpad]
    rfl
  · exact BitVec.getLsbD_of_ge y k (by omega)

/-- R80: with enough bytes, every bit loaded is the bit at its place in its byte. -/
theorem exists_byte_of_unpackBits (hlen : ceil8 n ≤ bytes.length) (hi : i < n) :
    ∃ y, bytes[i / 8]? = some y ∧ (unpackBits n bytes)[i]? = some (y.getLsbD (i % 8)) := by
  have hbound : i / 8 < bytes.length := by unfold ceil8 at hlen; omega
  refine ⟨bytes[i / 8], List.getElem?_eq_getElem hbound, ?_⟩
  rw [unpackBits_getElem? bytes hi, unpackedBit, List.getElem?_eq_getElem hbound]
  rfl

/-- R81: packing unpacked bits gives a byte back with the bits at or beyond `n` forced to 0. -/
theorem getLsbD_of_packBits_unpackBits (hy : (packBits (unpackBits n bytes))[j]? = some y) (hz : bytes[j]? = some z)
    (hk : k < 8) : y.getLsbD k = (decide (8 * j + k < n) && z.getLsbD k) := by
  by_cases hn : 8 * j + k < n
  · have hdiv : (8 * j + k) / 8 = j := by omega
    have hmod : (8 * j + k) % 8 = k := by omega
    rw [getLsbD_of_packBits hy hk, unpackBits_getElem? bytes hn, unpackedBit, hdiv, hmod, hz]
    simp [hn]
  · simp [getLsbD_of_packBits_padding hy (k := k) (by simpa using hn), hn]

/-- R43: an appended 0 bit has the value the padding had. -/
theorem bitValue_append_false (bits : List Bit) (i : Nat) : bitValue (bits ++ [false]) i = bitValue bits i := by
  rcases Nat.lt_trichotomy i bits.length with h | rfl | h
  · rw [bitValue, List.getElem?_append_left h, bitValue]
  · simp [bitValue]
  · rw [bitValue, List.getElem?_eq_none (by simpa using h), bitValue, List.getElem?_eq_none h.le]

/-- R82: a 0 bit appended inside the last byte changes no packed byte. -/
theorem packBits_append_false (h : bits.length % 8 ≠ 0) : packBits (bits ++ [false]) = packBits bits := by
  have hlen : ceil8 (bits ++ [false]).length = ceil8 bits.length := by
    simp only [ceil8, List.length_append, List.length_singleton]
    omega
  have hbyte : packedByte (bits ++ [false]) = packedByte bits := by
    funext j
    simp only [packedByte, bitValue_append_false]
  rw [packBits, hlen, hbyte, packBits]

end Sys2Proof.Machine
end

section
/-! The BitBuffer commands (R76 to R80): O22 to O28. -/

namespace Sys2Proof.Machine

open Sys2Proof

variable {s : State} {n : Nat} {bytes : List Byte}

/-- A command with the header R65 writes for `i` selects `i`'s row, whatever its operands are. -/
theorem decode_of_hdr_eq {w : HeaderWord} {arg : Nat} {p : List Elem} (i : Instr) (h : w = (encode i).hdr) :
    decode ⟨w, arg, p⟩ = decodeOperands i.opcode ⟨w, arg, p⟩ :=
  decode_of_select (h ▸ selectOpcode_encode i)

/-- BB_UNPACK with too few bytes, whatever the capacity (R80, R136). -/
theorem exec_bbUnpack_of_short (hlen : bytes.length < ceil8 n) :
    exec (.bbUnpack n bytes) s = .next ({ s with bitbuf := [] }.afterFault .illegalOperand bytes.length) := by
  rcases execBbUnpack_cases n bytes s with ⟨-, hx⟩ | ⟨hle, -⟩ | ⟨hle, -⟩
  · exact hx
  all_goals omega

/-- BB_UNPACK of more bits than the buffer holds (R80). -/
theorem exec_bbUnpack_of_not_fits (hlen : ceil8 n ≤ bytes.length) (hf : fits s.params.bitsMax n = false) :
    exec (.bbUnpack n bytes) s = .next ({ s with bitbuf := [] }.afterFault .capacityExceeded n) := by
  rcases execBbUnpack_cases n bytes s with ⟨hlt, -⟩ | ⟨-, -, hx⟩ | ⟨-, hf', -⟩
  · omega
  · exact hx
  · simp [hf] at hf'

/-- BB_UNPACK's OK outcome (R80). -/
theorem exec_bbUnpack_of_fits (hlen : ceil8 n ≤ bytes.length) (hf : fits s.params.bitsMax n = true) :
    exec (.bbUnpack n bytes) s = .next ({ s with bitbuf := unpackBits n bytes }.afterOk 0 []) := by
  rcases execBbUnpack_cases n bytes s with ⟨hlt, -⟩ | ⟨-, hf', -⟩ | ⟨-, -, hx⟩
  · omega
  · simp [hf] at hf'
  · exact hx

/-- Settles O25: the places of the bits and the padding are those of the packed bytes. -/
theorem bbPackPlacesEveryBitAndPadsWithZero : Obligations.BbPackPlacesEveryBitAndPadsWithZero := fun s _ _ =>
  ⟨decode_of_hdr_eq .bbPack rfl, packBits s.bitbuf, exec_bbPack s, packBits_length _,
    fun _ _ hb => exists_packBits_of_getElem? hb, fun _ _ _ hy hpad => getLsbD_of_packBits_padding hy hpad⟩

/-- Settles O26: the header's command takes `ARG` and the bytes of `P`, and the three clauses are BB_UNPACK's outcomes. -/
theorem bbUnpackLoadsExactlyTheBitsOrFaults : Obligations.BbUnpackLoadsExactlyTheBitsOrFaults := by
  intro s n bytes
  refine ⟨?decodes, exec_bbUnpack_of_short, fun hlen hbig => ?tooMany, fun hlen hsmall => ?loads⟩
  case decodes =>
    exact (decode_of_hdr_eq (.bbUnpack n bytes) rfl).trans (decodeOperands_encode (.bbUnpack n bytes))
  case tooMany => exact exec_bbUnpack_of_not_fits hlen ((fits_false_iff _ _).mpr hbig)
  case loads =>
    exact ⟨unpackBits n bytes, unpackBits_length n bytes, fun i hi => exists_byte_of_unpackBits hlen hi,
      exec_bbUnpack_of_fits hlen ((fits_iff _ _).mpr hsmall)⟩

/-- Settles O27: unpacking undoes packing, and packing undoes unpacking but for the padding. -/
theorem packAndUnpackAreInverseUpToPadding : Obligations.PackAndUnpackAreInverseUpToPadding := by
  refine ⟨fun s u hf => ⟨packBits s.bitbuf, exec_bbPack s, exec_bbUnpack_packBits hf⟩, fun s n bytes hlen hf => ?_⟩
  have hcount : (packBits (unpackBits n bytes)).length = ceil8 n := by simp
  refine ⟨_, packBits (unpackBits n bytes), exec_bbUnpack_of_fits hlen hf, rfl, ?_, hcount,
    fun _ _ _ hy hz _ hk => getLsbD_of_packBits_unpackBits hy hz hk⟩
  rw [exec_bbPack]
  rfl

/-- Settles O28: the number of bytes is `ceil8(BITLEN)`, and an appended 0 bit equals the padding bit it replaces. -/
theorem packedBytesDoNotTellTheBitCount : Obligations.PackedBytesDoNotTellTheBitCount := by
  intro s
  have hq : (packBits s.bitbuf).length = (s.bitbuf.length + 7) / 8 := packBits_length _
  refine ⟨packBits s.bitbuf, exec_bbPack s, by omega, by omega, fun h => ?_⟩
  rw [exec_bbPack, packBits_append_false h]
  rfl

/-- Settles O22: the header selects BB_CLEAR, which uses no operand and has one outcome. -/
theorem bbClearEmptiesTheBuffer : Obligations.BbClearEmptiesTheBuffer := fun _ _ _ =>
  ⟨decode_of_hdr_eq .bbClear rfl, rfl⟩

/-- Settles O23: the two headers are BB_APPEND's with its bit in `B`, and the two clauses are its outcomes. -/
theorem bbAppendAppendsOneBitOrFaults : Obligations.BbAppendAppendsOneBitOrFaults := by
  intro s b arg p
  have hhdr : (if b then 0x00000111#32 else 0x00000011#32) = headerWord .BB_APPEND b := by cases b <;> rfl
  have hdecode : decode ⟨if b then 0x00000111#32 else 0x00000011#32, arg, p⟩ = .ok (.bbAppend b) := by
    rw [decode_of_hdr_eq (.bbAppend b) hhdr, hhdr]
    simp [Instr.opcode, decodeOperands, bField_headerWord]
  rcases execBbAppend_cases b s with ⟨hfull, hx⟩ | ⟨hroom, hx⟩
  · exact ⟨hdecode, fun h => absurd hfull h, fun _ => hx⟩
  · exact ⟨hdecode, fun _ => hx, fun h => absurd h hroom⟩

/-- Settles O24: BB_LEN has one outcome, and status register 2 is `BITLEN`. -/
theorem bbLenAnswersTheBitCount : Obligations.BbLenAnswersTheBitCount := fun s _ _ =>
  ⟨decode_of_hdr_eq .bbLen rfl, exec_bbLen s, rfl⟩

end Sys2Proof.Machine
end

section
/-! The FrequencyTable commands (R86 to R88): O29 to O33, and O40. -/

namespace Sys2Proof.Machine

open Sys2Proof

variable {p : Params} {s : State} {pre syms : List Symbol} {x : Symbol} {t : List Entry} {trap : Trap}

/-- Every encoding is read back (R61, R65). -/
theorem decode_encode (i : Instr) : decode (encode i) = .ok i := decodeAndEncodeAgree.1 i

/-! ## FT_COUNT -/

/-- FT_COUNT's fault (R86, R134). -/
theorem exec_ftCount_of_error (h : countTable s.params syms = .error trap) :
    exec (.ftCount syms) s = .next ({ s with ft := [] }.afterFault trap.kind trap.info) := by
  simp only [exec, execFtCount, h]; rfl

/-- R86, R131: a symbol whose count has reached `CNT_MAX`, or which is new to a full table, is not counted. A new symbol has
count 0, so the first case covers `CNT_MAX = 0` (log entry 9). -/
theorem CountsOf.countSymbol_eq_none (h : CountsOf pre t)
    (hfull : p.cntMax = some (pre.count x) ∨ (x ∉ pre ∧ p.kMax = some pre.dedup.length)) :
    countSymbol p t x = none := by
  rcases countSymbol_cases p t x with ⟨e, he, hb, -⟩ | ⟨hx, hb, hf, -⟩ | ⟨-, hnone⟩
  · obtain ⟨hmem, rfl⟩ := findEntry_eq_some he
    have hknown : e.sym ∈ pre := (h.symbols _).mp (List.mem_map_of_mem hmem)
    rcases hfull with hc | ⟨hnew, -⟩
    · simp [(atBound_iff _ _).mpr (h.counts e hmem ▸ hc)] at hb
    · exact absurd hknown hnew
  · have hnew : x ∉ pre := mt (h.symbols x).mpr hx
    rcases hfull with hc | ⟨-, hk⟩
    · simp [hc, List.count_eq_zero.mpr hnew] at hf
    · simp [(atBound_iff _ _).mpr (h.length_eq ▸ hk)] at hb
  · exact hnone

/-- R86: FT_COUNT's loop faults at the first symbol that is not counted, with its index. -/
theorem countTable_append_cons (h : countTable p pre = .ok t) (hx : countSymbol p t x = none) (post : List Symbol) :
    countTable p (pre ++ x :: post) = .error ⟨.capacityExceeded, pre.length⟩ := by
  unfold countTable at h ⊢
  rw [countLoop_append, h]
  simp only [countLoop, hx, Nat.zero_add]

/-- Settles O29: an input that fits is counted, and the table counted is the one R86 describes. -/
theorem ftCountCountsInOrderOfFirstOccurrence : Obligations.FtCountCountsInOrderOfFirstOccurrence := by
  intro s syms hk hc
  obtain ⟨ft, hft⟩ := countTable_isOk hk hc
  have hcounts := countTable_countsOf hft
  exact ⟨decode_encode (.ftCount syms), ft, exec_ftCount_of_ok hft, hcounts.symbols, hcounts.counts,
    by simpa only [List.pairwise_map] using hcounts.inOrder, hcounts.sum_cnt⟩

/-- Settles O30: the beginning fits, so it is counted; the symbol after it is not. -/
theorem ftCountFaultsAtTheFirstSymbolThatDoesNotFit : Obligations.FtCountFaultsAtTheFirstSymbolThatDoesNotFit := by
  intro s pre post x hk hc hfull
  obtain ⟨t, ht⟩ := countTable_isOk hk hc
  exact exec_ftCount_of_error (countTable_append_cons ht ((countTable_countsOf ht).countSymbol_eq_none hfull) post)

/-! ## FT_LOAD and FT_READ -/

section Load

variable {seen entries : List Entry} {e : Entry}

/-- FT_LOAD's fault (R87, R134). -/
theorem exec_ftLoad_of_trap (h : loadLoop s.params entries 0 [] = some trap) :
    exec (.ftLoad entries) s = .next ({ s with ft := [] }.afterFault trap.kind trap.info) := by
  simp only [exec, execFtLoad, h]; rfl

/-- R87: FT_LOAD's loop passes over entries that meet R31. -/
theorem loadLoop_append_of_inv (h : FtInv p (seen ++ entries)) (rest : List Entry) :
    loadLoop p (entries ++ rest) seen.length (seen.map (·.sym)) =
      loadLoop p rest (seen ++ entries).length ((seen ++ entries).map (·.sym)) := by
  induction entries generalizing seen with
  | nil => simp
  | cons e entries ih =>
    have h' : FtInv p ((seen ++ [e]) ++ entries) := by simpa using h
    simp only [List.cons_append, loadLoop, loadFault_of_inv h'.of_append]
    simpa using ih h'

/-- R87: after entries that meet R31, the trap of the next entry is FT_LOAD's. -/
theorem exec_ftLoad_append_cons (h : FtInv s.params entries)
    (he : loadFault s.params (entries.map (·.sym)) entries.length e = some trap) (post : List Entry) :
    exec (.ftLoad (entries ++ e :: post)) s = .next ({ s with ft := [] }.afterFault trap.kind trap.info) := by
  apply exec_ftLoad_of_trap
  calc loadLoop s.params (entries ++ e :: post) 0 []
      = loadLoop s.params (e :: post) entries.length (entries.map (·.sym)) := loadLoop_append_of_inv (seen := []) h _
    _ = some trap := by simp only [loadLoop, he]

end Load

/-- Settles O31: the payload is read back from the encoding, and a table that meets R31 gives no trap. -/
theorem ftLoadLoadsATableThatMeetsTheInvariant : Obligations.FtLoadLoadsATableThatMeetsTheInvariant :=
  fun _ entries h => ⟨decode_encode (.ftLoad entries), exec_ftLoad_of_inv h⟩

/-- Settles O32: which trap the entry after the legal ones gives is what FT_LOAD's tests of one entry say. -/
theorem ftLoadFaultsAtTheFirstBadEntry : Obligations.FtLoadFaultsAtTheFirstBadEntry := by
  intro s pre post e hpre
  rcases loadFault_cases s.params (pre.map (·.sym)) pre.length e with
    ⟨hbad, hf⟩ | ⟨hpos, hnew, -, hf⟩ | ⟨hpos, hnew, hk, hc, -⟩
  · exact ⟨fun _ => exec_ftLoad_append_cons hpre hf post, fun hcnt hnew _ => absurd hbad (not_or.mpr ⟨hcnt, hnew⟩)⟩
  · exact ⟨fun hbad => absurd hbad (not_or.mpr ⟨by omega, hnew⟩), fun _ _ _ => exec_ftLoad_append_cons hpre hf post⟩
  · exact ⟨fun hbad => absurd hbad (not_or.mpr ⟨by omega, hnew⟩), fun _ _ hfull => by simp [hk, hc] at hfull⟩

/-- Settles O33: FT_READ answers the entries as FT_LOAD's payload, and a table that meets R31 is loaded as it stands. -/
theorem ftReadAnswersTheTableAndFtLoadRestoresIt : Obligations.FtReadAnswersTheTableAndFtLoadRestoresIt := fun s _ _ =>
  ⟨decode_of_hdr_eq .ftRead rfl, rfl, fun _ hu => ⟨.ftLoad s.ft, decode_encode (.ftLoad s.ft), exec_ftLoad_of_inv hu⟩⟩

/-! ## What the table and the tree depend on -/

/-- R89: the table, `STATUS` and `ERRINFO` that FT_COUNT leaves are functions of the parameters and the symbols. -/
theorem exec_ftCount_of_params (p : Params) (syms : List Symbol) :
    ∃ ft st info, ∀ s : State, s.params = p →
      exec (.ftCount syms) s = .next ({ s with ft := ft }.afterResponse ⟨st, info, 0, []⟩) := by
  cases h : countTable p syms with
  | ok ft => exact ⟨ft, .ok, 0, fun s hs => exec_ftCount_of_ok (hs ▸ h)⟩
  | error trap => exact ⟨[], trap.kind, trap.info, fun s hs => exec_ftCount_of_error (hs ▸ h)⟩

/-- HT_BUILD's fault (R93, R134). -/
theorem exec_htBuild_of_error (h : buildTree s.params.cntMax s.ft = .error trap) :
    exec .htBuild s = .next ({ s with tree := CodeTree.empty }.afterFault trap.kind trap.info) := by
  simp only [exec, execHtBuild, h]; rfl

/-- R108: the tree, `STATUS` and `ERRINFO` that HT_BUILD leaves are functions of `CNT_MAX` and the table. -/
theorem exec_htBuild_of_ft (cntMax : Option Nat) (ft : List Entry) :
    ∃ tree st info, ∀ s : State, s.params.cntMax = cntMax → s.ft = ft →
      exec .htBuild s = .next ({ s with tree := tree }.afterResponse ⟨st, info, 0, []⟩) := by
  cases h : buildTree cntMax ft with
  | ok tree => exact ⟨tree, .ok, 0, fun s hc hft => exec_htBuild_of_ok (hc ▸ hft ▸ h)⟩
  | error trap => exact ⟨CodeTree.empty, trap.kind, trap.info, fun s hc hft => exec_htBuild_of_error (hc ▸ hft ▸ h)⟩

/-- Settles O40: each command does to both states what its function of the inputs says. -/
theorem tableAndTreeDependOnTheirInputsAlone : Obligations.TableAndTreeDependOnTheirInputsAlone := by
  intro s u
  constructor
  · intro syms hp
    obtain ⟨ft, st, info, h⟩ := exec_ftCount_of_params u.params syms
    exact ⟨_, _, h s hp, h u rfl, rfl, rfl, rfl⟩
  · intro hft hc
    obtain ⟨tree, st, info, h⟩ := exec_htBuild_of_ft u.params.cntMax u.ft
    exact ⟨_, _, h s hc hft, h u rfl rfl, rfl, rfl, rfl⟩

end Sys2Proof.Machine
end

section
/-! Counting, building, encoding and decoding one after another (R118): O55. -/

namespace Sys2Proof.Machine

open Sys2Proof

variable {s : State} {syms : List Symbol}

/-- R111: the bits that the lookup's codes of an input take. -/
theorem sum_codeOf_length {tree : CodeTree} {codes : List (List Bit)} (h : CodesOf tree syms codes) :
    (syms.map fun x => ((codeOf tree x).getD []).length).sum = codes.flatten.length := by
  induction h with
  | nil => rfl
  | cons hc _ ih => simp [hc, ih]

/-- R99: an input of one distinct symbol that fits is counted, and HT_BUILD raises DegenerateAlphabet on its table. -/
theorem count_build_degenerate (h1 : syms.dedup.length = 1) (hk : fits s.params.kMax syms.dedup.length = true)
    (hc : ∀ x ∈ syms, fits s.params.cntMax (syms.count x) = true) :
    ∃ s₁ s₂, exec (.ftCount syms) s = .next s₁ ∧ s₁.status = .ok ∧
      exec .htBuild s₁ = .next s₂ ∧ s₂.status = .degenerateAlphabet := by
  obtain ⟨ft, hft⟩ := countTable_isOk hk hc
  obtain ⟨e, rfl⟩ := List.length_eq_one_iff.mp ((countTable_countsOf hft).length_eq.trans h1)
  exact ⟨_, _, exec_ftCount_of_ok hft, rfl, exec_htBuild_of_error rfl, rfl⟩

/-- R118: an input of two or more distinct symbols that fits is counted and its tree is built; when its codes fit the buffer they
are encoded and decoded to the input. -/
theorem count_build_encode_decode (h2 : 2 ≤ syms.dedup.length) (hk : fits s.params.kMax syms.dedup.length = true)
    (hc : fits s.params.cntMax syms.length = true) :
    ∃ s₁ s₂, exec (.ftCount syms) s = .next s₁ ∧ s₁.status = .ok ∧ exec .htBuild s₁ = .next s₂ ∧ s₂.status = .ok ∧
      (fits s.params.bitsMax (syms.map fun x => ((codeOf s₂.tree x).getD []).length).sum = true →
        ∃ s₃, exec (.cdEncode syms) s₂ = .next s₃ ∧ s₃.status = .ok ∧
          exec .cdDecode s₃ = .next (s₃.afterOk 0 (syms.map .sym))) := by
  obtain ⟨ft, hft⟩ := countTable_isOk hk fun x _ => fits_mono List.count_le_length hc
  have hcounts := countTable_countsOf hft
  have hinv := countLoop_keeps_inv _ 0 (FtInv.nil _) hft
  have hlen : 2 ≤ ft.length := hcounts.length_eq ▸ h2
  obtain ⟨tree, htree⟩ := buildTree_isOk hinv (by omega) (hcounts.sum_cnt ▸ hc)
  obtain ⟨hbuilt, hsyms⟩ := buildTree_built hinv (List.ne_nil_of_length_pos (by omega)) htree
  obtain ⟨codes, hcodes⟩ := exists_codesOf (t := tree) (syms := syms) fun x hx =>
    hbuilt.exists_codeOf (hsyms ▸ (hcounts.symbols x).mpr hx)
  refine ⟨_, _, exec_ftCount_of_ok hft, rfl, exec_htBuild_of_ok htree, rfl, fun hbits => ?_⟩
  have hfits : fits s.params.bitsMax codes.flatten.length = true :=
    (congrArg (fits _) (sum_codeOf_length hcodes)).symm.trans hbits
  have hout : encodeLoop s.params.bitsMax tree syms 0 [] = .ok codes.flatten :=
    encodeLoop_of_codes hcodes (by rwa [List.length_nil, Nat.zero_add])
  exact ⟨_, exec_cdEncode_of_ok hout, rfl, exec_cdDecode_of_ok (decodeBits_of_encodeLoop hbuilt hout)⟩

/-- Settles O55: the empty input leaves the table, the tree and the buffer empty; one symbol repeated is one distinct symbol. -/
theorem countBuildEncodeDecodeReturnsTheInput : Obligations.CountBuildEncodeDecodeReturnsTheInput := by
  refine ⟨fun s => ?_, fun s x n hk hc => ?_, fun s syms => count_build_encode_decode⟩
  · exact ⟨_, _, _, exec_ftCount_of_ok rfl, rfl, exec_htBuild_of_ok rfl, rfl, exec_cdEncode_of_ok rfl, rfl,
      exec_cdDecode_of_ok (syms := []) rfl⟩
  · have h1 : (List.replicate (n + 1) x).dedup.length = 1 := by rw [List.replicate_dedup (Nat.succ_ne_zero n)]; rfl
    refine count_build_degenerate h1 (by rwa [h1]) fun y hy => ?_
    obtain rfl := List.eq_of_mem_replicate hy
    simpa using hc

end Sys2Proof.Machine
end

section
/-! HT_BUILD of fewer than two entries and the traversal commands (R98, R99, R102 to R104): O34, O42, O43 and O44. -/

namespace Sys2Proof.Machine

open Sys2Proof

variable {s : State} {t : CodeTree} {h l r f : Nat} {x : Symbol} {n : Node} {b : Bit} {k : Nat}

/-- Settles O34: the two short tables are the first two cases of the builder. -/
theorem htBuildOfFewerThanTwoEntries : Obligations.HtBuildOfFewerThanTwoEntries := by
  intro s arg p
  refine ⟨decode_of_hdr_eq .htBuild rfl, fun h0 => ?_, fun h1 => ?_⟩
  · apply exec_htBuild_of_ok
    rw [List.length_eq_zero_iff.mp h0]
    rfl
  · obtain ⟨e, he⟩ := List.length_eq_one_iff.mp h1
    apply exec_htBuild_of_error (trap := ⟨.degenerateAlphabet, 0⟩)
    rw [he]
    rfl

/-- `ARG` at or above `NODECNT` is the handle of no node (R26, R133). -/
theorem nodeOfArg_of_le (hh : t.node.length ≤ h) : nodeOfArg t h = none := List.getElem?_eq_none hh

/-- HT_DESCEND on an internal node (R102). -/
theorem exec_htDescend_of_internal (hn : nodeOfArg s.tree h = some (.internal l r f)) :
    exec (.htDescend h b) s = .next (s.afterOk (if b then r else l) []) := by
  simp only [exec, execHtDescend, hn]; rfl

/-- HT_DESCEND on a leaf (R102). -/
theorem exec_htDescend_of_leaf (hn : nodeOfArg s.tree h = some (.leaf x f)) :
    exec (.htDescend h b) s = .next (s.afterFault .structuralViolation h) := by
  simp only [exec, execHtDescend, hn]; rfl

/-- HT_DESCEND on no handle (R102). -/
theorem exec_htDescend_of_none (hn : nodeOfArg s.tree h = none) :
    exec (.htDescend h b) s = .next (s.afterFault .illegalOperand h) := by
  simp only [exec, execHtDescend, hn]; rfl

/-- HT_ISLEAF on a node (R103). -/
theorem exec_htIsleaf_of_node (hn : nodeOfArg s.tree h = some n) :
    exec (.htIsleaf h) s = .next (s.afterOk (boolVal n.isLeaf) []) := by
  simp only [exec, execHtIsleaf, hn]; rfl

/-- HT_ISLEAF on no handle (R103). -/
theorem exec_htIsleaf_of_none (hn : nodeOfArg s.tree h = none) :
    exec (.htIsleaf h) s = .next (s.afterFault .illegalOperand h) := by
  simp only [exec, execHtIsleaf, hn]; rfl

/-- HT_NODE on a node (R104). -/
theorem exec_htNode_of_node (hn : nodeOfArg s.tree h = some n) :
    exec (.htNode h) s = .next (s.afterOk n.freq (nodeElems n)) := by
  simp only [exec, execHtNode, hn]; rfl

/-- HT_NODE on no handle (R104). -/
theorem exec_htNode_of_none (hn : nodeOfArg s.tree h = none) :
    exec (.htNode h) s = .next (s.afterFault .illegalOperand h) := by
  simp only [exec, execHtNode, hn]; rfl

/-- Settles O42: one rule of HT_DESCEND for each kind of node and for no node. -/
theorem htDescendAnswersTheChild : Obligations.HtDescendAnswersTheChild := by
  intro s h b p
  have hhdr : (if b then 0x00000132#32 else 0x00000032#32) = headerWord .HT_DESCEND b := by cases b <;> rfl
  refine ⟨?_, fun l r f hn => ?_, fun x f hn => exec_htDescend_of_leaf hn,
    fun hh => exec_htDescend_of_none (nodeOfArg_of_le hh)⟩
  · rw [decode_of_hdr_eq (.htDescend h b) hhdr, hhdr]
    simp [Instr.opcode, decodeOperands, bField_headerWord]
  · rw [exec_htDescend_of_internal hn]
    cases b <;> rfl

/-- R100: the handles below `k` are the leaves of a tree built from `k` entries. -/
theorem CodeTree.Built.isLeaf_eq {cntMax : Option Nat} (ht : t.Built cntMax k) (hn : t.node[h]? = some n) :
    n.isLeaf = decide (h < k) := by
  rcases Nat.lt_or_ge h k with hlt | hge
  · have hleaf := ht.leaves h hlt
    simp only [CodeTree.isLeafAt, hn] at hleaf
    rw [hleaf, decide_eq_true hlt]
  · have hh : h < 2 * k - 1 := ht.count ▸ (List.getElem?_eq_some_iff.mp hn).1
    obtain ⟨l, r, f, hn', -⟩ := internalOk_iff.mp (ht.internals h hh hge)
    obtain rfl := Option.some.inj (hn.symm.trans hn')
    rw [decide_eq_false (Nat.not_lt.mpr hge)]
    rfl

/-- Settles O43: HT_ISLEAF answers the node's kind, and the leaves of a built tree are its first nodes. -/
theorem htIsleafTellsLeavesFromInternalNodes : Obligations.HtIsleafTellsLeavesFromInternalNodes := by
  intro s h p
  refine ⟨decode_of_hdr_eq (.htIsleaf h) rfl, fun x f hn => exec_htIsleaf_of_node hn,
    fun l r f hn => exec_htIsleaf_of_node hn, fun hh => exec_htIsleaf_of_none (nodeOfArg_of_le hh), fun k ht hh => ?_⟩
  have hn : s.tree.node[h]? = some s.tree.node[h] := List.getElem?_eq_getElem hh
  rw [exec_htIsleaf_of_node hn, ht.isLeaf_eq hn]
  simp [boolVal]

/-- Settles O44: HT_NODE answers the fields of the node. -/
theorem htNodeAnswersTheNode : Obligations.HtNodeAnswersTheNode := fun _ h _ =>
  ⟨decode_of_hdr_eq (.htNode h) rfl, fun _ _ hn => exec_htNode_of_node hn, fun _ _ _ hn => exec_htNode_of_node hn,
    fun hh => exec_htNode_of_none (nodeOfArg_of_le hh)⟩

end Sys2Proof.Machine
end

section
/-! The codes of a built tree, one for each symbol (R101, R105, R107): O41, O45 and O46. -/

namespace Sys2Proof.Machine

open Sys2Proof

namespace CodeTree

variable {cntMax : Option Nat} {t : CodeTree} {k h h' c root : Nat} {bits bits' : List Bit} {x y : Symbol} {b b' : Bit}

/-- A symbol with a code is at a leaf. -/
theorem IsCode.mem_symbols (hx : t.IsCode x bits) : x ∈ t.symbols := by
  obtain ⟨-, h, -, -, hl⟩ := hx
  exact Machine.mem_symbols.mpr ⟨h, hl⟩

/-- A leaf has no child, so a walk from it that ends somewhere is empty. -/
theorem eq_nil_of_walk_leaf (hl : t.leafSymbol h = some x) (hw : t.walk h bits = some c) : bits = [] := by
  cases bits with
  | nil => rfl
  | cons b bits => simp [CodeTree.walk, CodeTree.child_of_leaf hl] at hw

/-- R105: after the code of a symbol the walk stands at a leaf, so a code that continues it is the same code of the same
symbol. -/
theorem IsCode.eq_of_prefix (hx : t.IsCode x bits) (hy : t.IsCode y bits') (hp : bits <+: bits') : x = y := by
  obtain ⟨more, rfl⟩ := hp
  obtain ⟨root, h, hroot, hw, hl⟩ := hx
  obtain ⟨root', h', hroot', hw', hl'⟩ := hy
  obtain rfl := Option.some.inj (hroot.symm.trans hroot')
  have hmore : t.walk h more = some h' := by simpa [CodeTree.walk_append, hw] using hw'
  obtain rfl := eq_nil_of_walk_leaf hl hmore
  obtain rfl := Option.some.inj hmore
  exact Option.some.inj (hl.symm.trans hl')

/-- The last bit of a walk is one step from where the bits before it lead. -/
theorem walk_concat : t.walk h (bits ++ [b]) = some c ↔ ∃ q, t.walk h bits = some q ∧ t.child (some q) b = some c := by
  rw [CodeTree.walk_append]
  cases t.walk h bits with
  | none => simp
  | some q => cases hc : t.child (some q) b <;> simp [CodeTree.walk, hc]

namespace Built

/-- R29: no handle stands twice as a child: the root not at all, every other handle once. -/
theorem childRefs_nodup (ht : t.Built cntMax k) : t.childRefs.Nodup := by
  refine List.nodup_iff_count_le_one.mpr fun (h : Nat) => ?_
  rcases Nat.lt_trichotomy h (2 * k - 2) with hlt | rfl | hgt
  · exact (ht.oneParent h hlt).le
  · exact ht.rootNoParent.le.trans (Nat.zero_le 1)
  · have hnot : h ∉ t.childRefs := fun hmem => by
      obtain ⟨q, l, r, f, hn, hlr⟩ := mem_childRefs.mp hmem
      obtain ⟨-, hq, hl, hr⟩ := ht.child_lt hn
      rcases hlr with rfl | rfl <;> omega
    exact (List.count_eq_zero.mpr hnot).le.trans (Nat.zero_le 1)

/-- R29: two nodes with a common child are one node. -/
theorem parent_unique (ht : t.Built cntMax k) (hc : t.child (some h) b = some c) (hc' : t.child (some h') b' = some c) :
    h = h' := by
  wlog hle : h ≤ h' generalizing h h' b b'
  · exact (this hc' hc (Nat.le_of_not_le hle)).symm
  obtain ⟨_, l, r, f, ⟨rfl⟩, hn, heq⟩ := CodeTree.child_eq_some.mp hc
  obtain ⟨_, l', r', f', ⟨rfl⟩, hn', heq'⟩ := CodeTree.child_eq_some.mp hc'
  by_contra hne
  obtain ⟨hh, hget⟩ := List.getElem?_eq_some_iff.mp hn
  obtain ⟨hh', hget'⟩ := List.getElem?_eq_some_iff.mp hn'
  have hdisj := List.pairwise_iff_getElem.mp (List.nodup_flatMap.mp ht.childRefs_nodup).2 h h' hh hh'
    (Nat.lt_of_le_of_ne hle hne)
  simp only [Function.onFun, hget, hget'] at hdisj
  exact hdisj (a := c) (by cases b <;> simp [heq]) (by cases b' <;> simp [heq'])

/-- R29: the two children of a node differ, so a child tells its direction. -/
theorem direction_unique (ht : t.Built cntMax k) (hc : t.child (some h) b = some c) (hc' : t.child (some h) b' = some c) :
    b = b' := by
  obtain ⟨_, l, r, f, ⟨rfl⟩, hn, heq⟩ := CodeTree.child_eq_some.mp hc
  obtain ⟨_, l', r', f', ⟨rfl⟩, hn', heq'⟩ := CodeTree.child_eq_some.mp hc'
  obtain ⟨rfl, rfl, rfl⟩ : l = l' ∧ r = r' ∧ f = f' := by simpa using hn.symm.trans hn'
  obtain ⟨hk, hh, -⟩ := ht.child_lt hn
  obtain ⟨_, _, _, hn'', -, -, hne, -⟩ := internalOk_iff.mp (ht.internals h hh hk)
  cases hn.symm.trans hn''
  have hchild : (if b then r else l) = if b' then r else l := heq.symm.trans heq'
  match b, b' with
  | false, false | true, true => rfl
  | false, true => exact absurd hchild hne
  | true, false => exact absurd hchild.symm hne

/-- R29: the root has no parent. -/
theorem root_not_child (ht : t.Built cntMax k) (q : Nat) (b : Bit) : t.child (some q) b ≠ some (2 * k - 2) := by
  intro hc
  obtain ⟨_, l, r, f, ⟨rfl⟩, hn, heq⟩ := CodeTree.child_eq_some.mp hc
  have hmem : 2 * k - 2 ∈ t.childRefs := mem_childRefs.mpr ⟨q, l, r, f, hn, by cases b <;> simp [heq]⟩
  exact List.count_eq_zero.mp ht.rootNoParent hmem

/-- R101: only one walk from the root ends at a node: the last step is the one from its only parent. -/
theorem walk_unique (ht : t.Built cntMax k) (hw : t.walk (2 * k - 2) bits = some c)
    (hw' : t.walk (2 * k - 2) bits' = some c) : bits = bits' := by
  induction bits using List.reverseRecOn generalizing bits' c with
  | nil =>
    obtain rfl := Option.some.inj hw
    rcases List.eq_nil_or_concat' bits' with rfl | ⟨pre, b, rfl⟩
    · rfl
    · obtain ⟨q, -, hc⟩ := walk_concat.mp hw'
      exact absurd hc (ht.root_not_child q b)
  | append_singleton pre b ih =>
    obtain ⟨q, hq, hc⟩ := walk_concat.mp hw
    rcases List.eq_nil_or_concat' bits' with rfl | ⟨pre', b', rfl⟩
    · obtain rfl := Option.some.inj hw'
      exact absurd hc (ht.root_not_child q b)
    · obtain ⟨q', hq', hc'⟩ := walk_concat.mp hw'
      obtain rfl := ht.parent_unique hc hc'
      obtain rfl := ht.direction_unique hc hc'
      rw [ih hq hq']

/-- R100: a symbol is at one leaf. -/
theorem leaf_unique (ht : t.Built cntMax k) (hl : t.leafSymbol h = some x) (hl' : t.leafSymbol h' = some x) : h = h' := by
  wlog hle : h ≤ h' generalizing h h'
  · exact (this hl' hl (Nat.le_of_not_le hle)).symm
  obtain ⟨f, hn⟩ := CodeTree.leafSymbol_eq_some.mp hl
  obtain ⟨f', hn'⟩ := CodeTree.leafSymbol_eq_some.mp hl'
  obtain ⟨hh, hget⟩ := List.getElem?_eq_some_iff.mp hn
  obtain ⟨hh', hget'⟩ := List.getElem?_eq_some_iff.mp hn'
  by_contra hne
  have hdiff := List.pairwise_iff_getElem.mp (List.pairwise_filterMap.mp ht.distinct) h h' hh hh'
    (Nat.lt_of_le_of_ne hle hne)
  exact hdiff x (by rw [hget]) x (by rw [hget']) rfl

/-- R101: the code of a symbol is the one path to its one leaf. -/
theorem isCode_unique (ht : t.Built cntMax k) (hx : t.IsCode x bits) (hx' : t.IsCode x bits') : bits = bits' := by
  obtain ⟨root, h, hroot, hw, hl⟩ := hx
  obtain ⟨root', h', hroot', hw', hl'⟩ := hx'
  obtain rfl := Option.some.inj (ht.rootLast.symm.trans hroot)
  obtain rfl := Option.some.inj (ht.rootLast.symm.trans hroot')
  obtain rfl := ht.leaf_unique hl hl'
  exact ht.walk_unique hw hw'

end Built

end CodeTree

section TreeInv

variable {cntMax : Option Nat} {t : CodeTree} {x : Symbol} {bits bits' : List Bit}

/-- R101: in a tree of R29 the lookup answers a code of every symbol; the empty tree has none. -/
theorem TreeInv.exists_codeOf (ht : TreeInv cntMax t) (hx : x ∈ t.symbols) : ∃ c, codeOf t x = some c := by
  rcases ht with rfl | ⟨k, ht⟩
  · simp [CodeTree.symbols, CodeTree.empty] at hx
  · exact ht.exists_codeOf hx

/-- R101: in a tree of R29 a symbol has at most one code. -/
theorem TreeInv.isCode_unique (ht : TreeInv cntMax t) (hx : t.IsCode x bits) (hx' : t.IsCode x bits') : bits = bits' := by
  rcases ht with rfl | ⟨k, ht⟩
  · obtain ⟨root, h, hroot, -⟩ := hx
    cases hroot
  · exact ht.isCode_unique hx hx'

end TreeInv

/-- Settles O41: the three outcomes of HT_GETCODE; what the lookup finds is the code of a symbol, and it finds every symbol. -/
theorem htGetcodeAnswersTheOnePathToTheLeaf : Obligations.HtGetcodeAnswersTheOnePathToTheLeaf := by
  intro s arg p ht
  refine ⟨decode_of_hdr_eq (.htGetcode arg) rfl, ?_⟩
  rcases execHtGetcode_cases arg s with ⟨hbig, hexec⟩ | ⟨hsym, hnone, hexec⟩ | ⟨c, hsym, hc, hexec⟩
  · exact ⟨fun hlt => absurd hlt (Nat.not_lt.mpr hbig), fun hlt => absurd hlt (Nat.not_lt.mpr hbig), fun _ => hexec⟩
  · have hx : arg ∉ s.tree.symbols := fun hx => by
      obtain ⟨c, hc⟩ := ht.exists_codeOf hx
      cases hnone.symm.trans hc
    exact ⟨fun _ hmem => absurd hmem hx, fun _ _ => hexec, fun hbig => absurd hsym (Nat.not_lt.mpr hbig)⟩
  · have hcode := codeOf_isCode hc
    exact ⟨fun _ _ => ⟨c, hcode, fun c' hc' => ht.isCode_unique hc' hcode, hexec⟩,
      fun _ hx => absurd hcode.mem_symbols hx, fun hbig => absurd hsym (Nat.not_lt.mpr hbig)⟩

/-- Settles O45: a code that continues another one ends at the same leaf. -/
theorem codesOfABuiltTreeArePrefixFree : Obligations.CodesOfABuiltTreeArePrefixFree :=
  fun _ _ _ _ _ _ _ _ hx hy hne hp => hne (hx.eq_of_prefix hy hp)

/-- Settles O46: every leaf is reached from the root, which is no leaf, along handles that decrease. -/
theorem codeLengthsAreBetweenOneAndEntriesLessOne : Obligations.CodeLengthsAreBetweenOneAndEntriesLessOne :=
  fun _ _ _ ht => ⟨fun _ hx => ht.exists_isCode hx, fun _ _ hx =>
    ⟨List.length_pos_iff.mpr (ht.isCode_ne_nil hx), ht.isCode_length_le hx⟩⟩

end Sys2Proof.Machine
end

section
/-! HT_BUILD of two or more entries: the tree's shape (R93, R94, R96), and the first frequency that is too large (R93, R131): O35
and O38. -/

namespace Sys2Proof.Machine

open Sys2Proof

variable {cntMax : Option Nat} {ft : List Entry} {t : CodeTree} {nodes : List Node} {w : List Handle}

/-- R94: the table's entry `j` is the leaf `j` of the tree. -/
theorem buildTree_leaf (h : buildTree cntMax ft = .ok t) {j : Nat} {e : Entry} (he : ft[j]? = some e) :
    t.node[j]? = some (.leaf e.sym e.cnt) := by
  have hprefix : leavesOf ft <+: t.node := by
    match ft, h with
    | [], _ => exact List.nil_prefix
    | _ :: _ :: _, h => exact mergeLoop_prefix h
  obtain ⟨more, hnode⟩ := hprefix
  have hj : j < ft.length := (List.getElem?_eq_some_iff.mp he).1
  rw [← hnode, List.getElem?_append_left (by simpa using hj), leavesOf_getElem?, he]
  rfl

/-- Settles O35: counts that fit together raise no fault, and the loop ends with the built shape. -/
theorem htBuildBuildsAStrictBinaryTree : Obligations.HtBuildBuildsAStrictBinaryTree := by
  intro s hft h2 hfits
  obtain ⟨t, ht⟩ := buildTree_isOk hft (by omega) hfits
  have hne : s.ft ≠ [] := List.ne_nil_of_length_pos (by omega)
  exact ⟨t, exec_htBuild_of_ok ht, (buildTree_built hft hne ht).1, fun _ _ he => buildTree_leaf ht he⟩

/-- R93: the first node that the unbounded loop makes with a frequency above `CNT_MAX` is the one the bounded loop faults at. -/
theorem mergeLoop_error_of_unbounded {k h : Nat} (ht : mergeLoop none k nodes w = .ok t) (hge : nodes.length ≤ h)
    (hlt : h < t.node.length) (hbig : fits cntMax (freqAt t.node h) = false)
    (hfirst : ∀ h', nodes.length ≤ h' → h' < h → fits cntMax (freqAt t.node h') = true) :
    mergeLoop cntMax k nodes w = .error ⟨.capacityExceeded, h⟩ := by
  induction k generalizing nodes w with
  | zero =>
    obtain rfl := Except.ok.inj ht
    exact absurd hlt (Nat.not_lt.mpr hge)
  | succ k ih =>
    match hs : sortByFreq nodes w with
    | a :: b :: rest =>
      simp only [mergeLoop_succ hs, fits_none, if_true] at ht ⊢
      have hnew : freqAt t.node nodes.length = freqAt nodes a + freqAt nodes b := by
        obtain ⟨more, hnode⟩ := mergeLoop_prefix ht
        rw [← hnode, freqAt_append_left (by simp), freqAt_append_self]
        rfl
      rcases Nat.eq_or_lt_of_le hge with rfl | hlater
      · rw [← hnew, if_neg (by simp [hbig])]
      · rw [← hnew, if_pos (hfirst _ le_rfl hlater), hnew]
        exact ih ht (by simpa using hlater) fun h' hh' => hfirst h' (Nat.le_of_succ_le (by simpa using hh'))
    | [] | [_] =>
      rw [mergeLoop_of_length_le_one _ (by rw [← sortByFreq_length nodes w, hs]; simp)] at ht
      obtain rfl := Except.ok.inj ht
      exact absurd hlt (Nat.not_lt.mpr hge)

/-- R93, R131: HT_BUILD faults at the first node of the unbounded tree whose frequency passes `CNT_MAX`. -/
theorem buildTree_error_of_unbounded {h : Nat} (ht : buildTree none ft = .ok t) (h2 : 2 ≤ ft.length) (hge : ft.length ≤ h)
    (hlt : h < t.node.length) (hbig : fits cntMax (freqAt t.node h) = false)
    (hfirst : ∀ h', ft.length ≤ h' → h' < h → fits cntMax (freqAt t.node h') = true) :
    buildTree cntMax ft = .error ⟨.capacityExceeded, h⟩ := by
  match ft with
  | _ :: _ :: _ =>
    exact mergeLoop_error_of_unbounded ht (by simpa using hge) hlt hbig fun h' hh' => hfirst h' (by simpa using hh')

/-- Settles O38: the unbounded block has a tree with the node `h`, so its builder did not fault, and the bounded builder faults
at `h`. -/
theorem htBuildFaultsAtTheFirstFrequencyTooLarge : Obligations.HtBuildFaultsAtTheFirstFrequencyTooLarge := by
  intro s u h h2 hu hge hlt hbig hfirst
  rcases execHtBuild_cases { s with params := { s.params with cntMax := none } } with ⟨t, ht, hexec⟩ | ⟨trap, -, hexec⟩
  · obtain rfl := Host.Outcome.next.inj (hexec.symm.trans hu)
    exact exec_htBuild_of_error (buildTree_error_of_unbounded (cntMax := s.params.cntMax) ht h2 hge hlt hbig hfirst)
  · obtain rfl := Host.Outcome.next.inj (hexec.symm.trans hu)
    exact absurd hlt (Nat.not_lt_zero h)

end Sys2Proof.Machine
end

section
/-! R97's order, and the builder that selects without sorting: O37. -/

namespace Sys2Proof.Machine

open Sys2Proof

variable {nodes more : List Node} {w w' l rest : List Handle} {a b c m : Handle}

/-- R97's order is the lexicographic one of the pairs (frequency, handle). -/
theorem before_iff : before nodes a b ↔ toLex (freqAt nodes a, a) < toLex (freqAt nodes b, b) :=
  (Prod.Lex.toLex_lt_toLex (x := (freqAt nodes a, a)) (y := (freqAt nodes b, b))).symm

/-- R97's order is transitive. -/
theorem before.trans (hab : before nodes a b) (hbc : before nodes b c) : before nodes a c :=
  before_iff.mpr (lt_trans (before_iff.mp hab) (before_iff.mp hbc))

/-- R97's order is strict. -/
theorem before.asymm (hab : before nodes a b) : ¬ before nodes b a :=
  fun hba => lt_asymm (before_iff.mp hab) (before_iff.mp hba)

/-- No handle comes before itself. -/
theorem before.ne (hab : before nodes a b) : a ≠ b := by
  rintro rfl
  exact hab.asymm hab

/-- Of two handles one comes before the other: the order of R97 leaves no tie. -/
theorem before_or_before (nodes : List Node) (hab : a ≠ b) : before nodes a b ∨ before nodes b a := by
  have hne : toLex (freqAt nodes a, a) ≠ toLex (freqAt nodes b, b) := by simp [hab]
  exact (lt_or_gt_of_ne hne).imp before_iff.mpr before_iff.mpr

/-- The first node in R97's order has the lower frequency or the same. -/
theorem before.freqAt_le (hab : before nodes a b) : freqAt nodes a ≤ freqAt nodes b :=
  hab.elim le_of_lt fun heq => heq.1.le

/-- Nodes made later change the order of no earlier ones. -/
theorem before_append (ha : a < nodes.length) (hb : b < nodes.length) : before (nodes ++ more) a b ↔ before nodes a b := by
  simp only [before, freqAt_append_left ha, freqAt_append_left hb]

/-- The selection takes a handle of the list that comes before every other one (R97). -/
theorem leastOf_spec (nodes : List Node) (w : List Handle) :
    (leastOf nodes w = none ∧ w = []) ∨
    ∃ m, leastOf nodes w = some m ∧ m ∈ w ∧ ∀ c ∈ w, c ≠ m → before nodes m c := by
  induction w with
  | nil => exact .inl ⟨rfl, rfl⟩
  | cons h w ih =>
    refine .inr ?_
    rcases ih with ⟨hnone, rfl⟩ | ⟨m, hsome, hm, hleast⟩
    · exact ⟨h, by simp [leastOf], by simp, by simp⟩
    · simp only [leastOf, hsome]
      split
      · next hmh =>
        refine ⟨m, rfl, List.mem_cons_of_mem _ hm, fun c hc hne => ?_⟩
        rcases List.mem_cons.mp hc with rfl | hc
        · exact hmh
        · exact hleast c hc hne
      · next hmh =>
        refine ⟨h, rfl, List.mem_cons_self, fun c hc hne => ?_⟩
        replace hc := (List.mem_cons.mp hc).resolve_left hne
        rcases eq_or_ne m h with rfl | hne'
        · exact hleast c hc hne
        · have hhm : before nodes h m := (before_or_before nodes hne').resolve_left hmh
          rcases eq_or_ne c m with rfl | hcm
          · exact hhm
          · exact hhm.trans (hleast c hc hcm)

/-- R97: in whatever order the list stands, the selection takes the handle that comes before all others. -/
theorem leastOf_of_perm (hp : w.Perm (a :: l)) (ha : ∀ c ∈ l, before nodes a c) : leastOf nodes w = some a := by
  rcases leastOf_spec nodes w with ⟨-, rfl⟩ | ⟨m, hm, hmem, hleast⟩
  · cases hp.nil_eq
  · rcases List.mem_cons.mp (hp.mem_iff.mp hmem) with rfl | hml
    · exact hm
    · exact absurd (hleast a (hp.mem_iff.mpr List.mem_cons_self) (ha m hml).ne) (ha m hml).asymm

/-- The handles of the working list name nodes already made, and among equal frequencies they stand in handle order: what the
stable sort needs to agree with R97's order. -/
structure InHandleOrder (nodes : List Node) (w : List Handle) : Prop where
  made : ∀ h ∈ w, h < nodes.length
  order : w.Pairwise fun a b => freqAt nodes a = freqAt nodes b → a < b

/-- R94: the loop starts with the leaves in handle order. -/
theorem inHandleOrder_range (nodes : List Node) : InHandleOrder nodes (List.range nodes.length) where
  made _ hh := List.mem_range.mp hh
  order := by
    refine List.pairwise_lt_range.imp ?_
    exact fun hlt _ => hlt

namespace InHandleOrder

/-- R95, R97: the stable sort puts the working list in R97's order. -/
theorem sorted (hw : InHandleOrder nodes w) : (sortByFreq nodes w).Pairwise (before nodes) :=
  (sortByFreq_ordered nodes w hw.order).imp fun ⟨hle, hlt⟩ =>
    (Nat.lt_or_eq_of_le hle).imp_right fun heq => ⟨heq, hlt heq⟩

/-- The sorted list's handles are those of the working list. -/
theorem made_sorted (hw : InHandleOrder nodes w) : ∀ h ∈ sortByFreq nodes w, h < nodes.length :=
  fun h hh => hw.made h ((sortByFreq_perm nodes w).mem_iff.mp hh)

/-- R96: a merge keeps the order, since the new node comes last and has the highest handle. -/
theorem merge (hw : InHandleOrder nodes w) (hs : sortByFreq nodes w = a :: b :: rest) (n : Node) :
    InHandleOrder (nodes ++ [n]) (rest ++ [nodes.length]) := by
  have hmade : ∀ h ∈ rest, h < nodes.length := fun h hh => hw.made_sorted h (by simp [hs, hh])
  have hrest : rest.Pairwise (before nodes) := (hs ▸ hw.sorted).tail.tail
  refine ⟨fun h hh => ?_, List.pairwise_append.mpr ⟨?_, List.pairwise_singleton _ _, fun c hc d hd _ => ?_⟩⟩
  · rw [List.length_append, List.length_singleton]
    rcases List.mem_append.mp hh with hh | hh
    · exact (hmade h hh).trans (Nat.lt_succ_self _)
    · exact List.mem_singleton.mp hh ▸ Nat.lt_succ_self _
  · refine hrest.imp_of_mem fun {c d} hc hd hcd heq => ?_
    rw [freqAt_append_left (hmade c hc), freqAt_append_left (hmade d hd)] at heq
    exact (hcd.resolve_left heq.not_lt).2
  · exact List.mem_singleton.mp hd ▸ hmade c hc

end InHandleOrder

variable {cntMax : Option Nat} {k : Nat}

/-- One iteration of R97's loop when two or more nodes remain. -/
theorem priorityLoop_succ (ha : leastOf nodes w = some a) (hb : leastOf nodes (w.erase a) = some b) :
    priorityLoop cntMax (k + 1) nodes w =
      if fits cntMax (freqAt nodes a + freqAt nodes b) then
        priorityLoop cntMax k (nodes ++ [.internal a b (freqAt nodes a + freqAt nodes b)])
          ((w.erase a).erase b ++ [nodes.length])
      else .error ⟨.capacityExceeded, nodes.length⟩ := by
  simp only [priorityLoop, ha, hb]

/-- R97's loop ends where at most one node remains. -/
theorem priorityLoop_of_length_le_one (k : Nat) (hw : w.length ≤ 1) :
    priorityLoop cntMax k nodes w = .ok ⟨nodes, w.head?⟩ := by
  match k, w, hw with
  | 0, _, _ => rfl
  | k + 1, [], _ => rfl
  | k + 1, [a], _ => simp [priorityLoop, leastOf]

/-- Both loops end on a list of at most one node, and then the tree does not depend on which of the two ran. -/
theorem priorityLoop_eq_mergeLoop_of_length_le_one (k : Nat) (hp : w'.Perm w) (h1 : w.length ≤ 1) :
    priorityLoop cntMax k nodes w' = mergeLoop cntMax k nodes w := by
  have heq : w' = w := by
    match w, h1, hp with
    | [], _, hp => exact hp.eq_nil
    | [_], _, hp => exact hp.eq_singleton
  rw [heq, priorityLoop_of_length_le_one k h1, mergeLoop_of_length_le_one k h1]

/-- R97: the two loops agree on working lists of the same handles, whatever the order of the unsorted one. -/
theorem priorityLoop_eq_mergeLoop (hw : InHandleOrder nodes w) (hp : w'.Perm w) (hk : w.length ≤ k + 1) :
    priorityLoop cntMax k nodes w' = mergeLoop cntMax k nodes w := by
  induction k generalizing nodes w w' with
  | zero => exact priorityLoop_eq_mergeLoop_of_length_le_one 0 hp hk
  | succ k ih =>
    match hs : sortByFreq nodes w with
    | a :: b :: rest =>
      have hlen : w.length = rest.length + 2 := by rw [← sortByFreq_length nodes w, hs]; rfl
      obtain ⟨ha, hb⟩ := List.pairwise_cons.mp (hs ▸ hw.sorted)
      have hpa : w'.Perm (a :: b :: rest) := hs ▸ hp.trans (sortByFreq_perm nodes w).symm
      have hpb : (w'.erase a).Perm (b :: rest) := by simpa using hpa.erase a
      have hrest : ((w'.erase a).erase b).Perm rest := by simpa using hpb.erase b
      rw [priorityLoop_succ (leastOf_of_perm hpa ha) (leastOf_of_perm hpb (List.pairwise_cons.mp hb).1), mergeLoop_succ hs]
      split
      · exact ih (hw.merge hs _) (hrest.append_right _) (by simp; omega)
      · rfl
    | [] | [_] =>
      exact priorityLoop_eq_mergeLoop_of_length_le_one _ hp (by rw [← sortByFreq_length nodes w, hs]; simp)

/-- Settles O37: both builders start from the leaves in handle order. -/
theorem selectionWithoutSortingBuildsTheSameTree : Obligations.SelectionWithoutSortingBuildsTheSameTree := by
  intro cntMax ft
  match ft with
  | [] | [_] => rfl
  | e :: e' :: rest =>
    have hstart := inHandleOrder_range (leavesOf (e :: e' :: rest))
    rw [leavesOf_length] at hstart
    exact priorityLoop_eq_mergeLoop hstart (List.Perm.refl _) (by simp)

end Sys2Proof.Machine
end

section
/-! What every merge of HT_BUILD takes (R95, R96), and the order of the merged frequencies: O36 and O39. -/

namespace Sys2Proof.Machine

open Sys2Proof

variable {cntMax : Option Nat} {ft : List Entry} {t : CodeTree} {nodes more : List Node} {root root' : Option Handle}
  {w rest : List Handle} {h l r a b c : Handle} {f k : Nat}

/-- The internal node `h` merges the two first candidates in R97's order, the first of them on the left (R96). -/
structure CodeTree.MergesFirst (t : CodeTree) (h l r : Handle) (f : Nat) : Prop where
  left : t.candidateAt h l
  right : t.candidateAt h r
  inOrder : before t.node l r
  sum : f = freqAt t.node l + freqAt t.node r
  others : ∀ c, t.candidateAt h c → c ≠ l → c ≠ r → before t.node r c

/-- Which handles are candidates for a node depends on the nodes made before it alone. -/
theorem candidateAt_append (hh : h ≤ nodes.length) :
    (CodeTree.mk (nodes ++ more) root').candidateAt h c ↔ (CodeTree.mk nodes root).candidateAt h c := by
  refine and_congr_right fun _ => forall₂_congr fun h' hh' => ?_
  rw [List.getElem?_append_left (hh'.trans_le hh)]

/-- R96: of the nodes made before `h`, the merge at `h` takes its two children off the list. -/
theorem candidateAt_succ_of_lt (hn : t.node[h]? = some (.internal l r f)) (hc : c < h) :
    t.candidateAt (h + 1) c ↔ t.candidateAt h c ∧ c ≠ l ∧ c ≠ r := by
  constructor
  · exact fun ⟨_, hfree⟩ => ⟨⟨hc, fun h' hh' => hfree h' (Nat.lt_succ_of_lt hh')⟩, hfree h (Nat.lt_succ_self h) l r f hn⟩
  · rintro ⟨⟨-, hfree⟩, hl, hr⟩
    refine ⟨Nat.lt_succ_of_lt hc, fun h' hh' l' r' f' hn' => ?_⟩
    rcases Nat.lt_succ_iff_lt_or_eq.mp hh' with hlt | rfl
    · exact hfree h' hlt l' r' f' hn'
    · cases hn.symm.trans hn'
      exact ⟨hl, hr⟩

/-- Nodes made later change no merge. -/
theorem CodeTree.MergesFirst.append (hm : (CodeTree.mk nodes root).MergesFirst h l r f) (hh : h ≤ nodes.length) :
    (CodeTree.mk (nodes ++ more) root').MergesFirst h l r f := by
  have hcand : ∀ c, (CodeTree.mk (nodes ++ more) root').candidateAt h c ↔ (CodeTree.mk nodes root).candidateAt h c :=
    fun _ => candidateAt_append hh
  have hmade : ∀ {c}, (CodeTree.mk nodes root).candidateAt h c → c < nodes.length := fun hc => hc.1.trans_le hh
  exact
    { left := (hcand l).mpr hm.left
      right := (hcand r).mpr hm.right
      inOrder := (before_append (hmade hm.left) (hmade hm.right)).mpr hm.inOrder
      sum := by
        dsimp only
        rw [freqAt_append_left (hmade hm.left), freqAt_append_left (hmade hm.right)]
        exact hm.sum
      others := fun c hc hl hr =>
        have hc' := (hcand c).mp hc
        (before_append (hmade hm.right) (hmade hc')).mpr (hm.others c hc' hl hr) }

/-- What holds at every iteration of the builder's loop from `k` leaves: the working list is in handle order among equal
frequencies and holds the candidates for the next node, the nodes from `k` on are internal, and each of them merged the two
first candidates. -/
structure MergedInOrder (k : Nat) (nodes : List Node) (w : List Handle) : Prop where
  handleOrder : InHandleOrder nodes w
  candidates : ∀ c, c ∈ w ↔ (CodeTree.mk nodes none).candidateAt nodes.length c
  internals : ∀ h : Nat, k ≤ h → h < nodes.length → ∃ l r f, nodes[h]? = some (.internal l r f)
  merges : ∀ (h l r : Handle) (f : Nat), nodes[h]? = some (.internal l r f) → (CodeTree.mk nodes none).MergesFirst h l r f

/-- R94: leaves are no internal nodes. -/
theorem leavesOf_ne_internal (ft : List Entry) : (leavesOf ft)[h]? ≠ some (.internal l r f) := by
  rw [leavesOf_getElem?]
  cases ft[h]? <;> simp

/-- R94: at the start every leaf is a candidate and nothing is merged. -/
theorem mergedInOrder_leavesOf (ft : List Entry) : MergedInOrder ft.length (leavesOf ft) (List.range ft.length) where
  handleOrder := by simpa using inHandleOrder_range (leavesOf ft)
  candidates c := by
    simp only [List.mem_range, leavesOf_length, CodeTree.candidateAt]
    exact (and_iff_left fun _ _ _ _ _ hn => absurd hn (leavesOf_ne_internal ft)).symm
  internals h hk hh := absurd hk (Nat.not_le.mpr (by simpa using hh))
  merges _ _ _ _ hn := absurd hn (leavesOf_ne_internal ft)

namespace MergedInOrder

/-- R95, R96: the two nodes that a merge takes off the sorted list are the two first candidates. -/
theorem mergesFirst (hm : MergedInOrder k nodes w) (hs : sortByFreq nodes w = a :: b :: rest) :
    (CodeTree.mk nodes none).MergesFirst nodes.length a b (freqAt nodes a + freqAt nodes b) := by
  have hcand : ∀ c, c ∈ a :: b :: rest ↔ (CodeTree.mk nodes none).candidateAt nodes.length c := fun c =>
    hs ▸ (sortByFreq_perm nodes w).mem_iff.trans (hm.candidates c)
  obtain ⟨ha, hb⟩ := List.pairwise_cons.mp (hs ▸ hm.handleOrder.sorted)
  exact
    { left := (hcand a).mp (by simp)
      right := (hcand b).mp (by simp)
      inOrder := ha b (by simp)
      sum := rfl
      others := fun c hc hca hcb => (List.pairwise_cons.mp hb).1 c <| by
        simpa [hca, hcb] using (hcand c).mpr hc }

/-- R96: after a merge the candidates are those that were left, and the new node. -/
theorem candidates_merge (hm : MergedInOrder k nodes w) (hs : sortByFreq nodes w = a :: b :: rest) :
    c ∈ rest ++ [nodes.length] ↔
      (CodeTree.mk (nodes ++ [.internal a b f]) none).candidateAt (nodes.length + 1) c := by
  obtain ⟨hab, hb⟩ := List.pairwise_cons.mp (hs ▸ hm.handleOrder.sorted)
  have hnew : (nodes ++ [Node.internal a b f])[nodes.length]? = some (.internal a b f) := by simp
  have hfirst := hm.mergesFirst hs
  rcases lt_trichotomy c nodes.length with hlt | rfl | hgt
  · have hleft : c ∈ rest ↔ c ∈ w ∧ c ≠ a ∧ c ≠ b := by
      rw [← (sortByFreq_perm nodes w).mem_iff, hs]
      constructor
      · exact fun hc => ⟨by simp [hc], fun he => (hab c (by simp [hc])).ne he.symm,
          fun he => ((List.pairwise_cons.mp hb).1 c hc).ne he.symm⟩
      · rintro ⟨hc, hca, hcb⟩
        simpa [hca, hcb] using hc
    rw [candidateAt_succ_of_lt hnew hlt, candidateAt_append le_rfl (root := none), ← hm.candidates, ← hleft]
    simp [hlt.ne]
  · refine iff_of_true (by simp) ⟨Nat.lt_succ_self _, fun h hh l r f' hn => ?_⟩
    rcases Nat.lt_succ_iff_lt_or_eq.mp hh with hlt | rfl
    · rw [List.getElem?_append_left hlt] at hn
      have hmerge := hm.merges h l r f' hn
      exact ⟨(hmerge.left.1.trans hlt).ne', (hmerge.right.1.trans hlt).ne'⟩
    · cases hnew.symm.trans hn
      exact ⟨hfirst.left.1.ne', hfirst.right.1.ne'⟩
  · refine iff_of_false (fun hc => ?_) fun hc => absurd hc.1 (Nat.not_lt.mpr hgt)
    rcases List.mem_append.mp hc with hc | hc
    · exact hgt.not_gt (hm.handleOrder.made_sorted c (by simp [hs, hc]))
    · exact hgt.ne' (List.mem_singleton.mp hc)

/-- One merge keeps all of it (R96). -/
theorem merge (hm : MergedInOrder k nodes w) (hs : sortByFreq nodes w = a :: b :: rest) :
    MergedInOrder k (nodes ++ [.internal a b (freqAt nodes a + freqAt nodes b)]) (rest ++ [nodes.length]) where
  handleOrder := hm.handleOrder.merge hs _
  candidates c := by
    rw [List.length_append, List.length_singleton]
    exact hm.candidates_merge hs
  internals h hk hh := by
    rcases Nat.lt_succ_iff_lt_or_eq.mp (by simpa using hh) with hlt | rfl
    · simpa only [List.getElem?_append_left hlt] using hm.internals h hk hlt
    · exact ⟨a, b, freqAt nodes a + freqAt nodes b, by simp⟩
  merges h l r f hn := by
    have hh : h < nodes.length + 1 := by simpa using (List.getElem?_eq_some_iff.mp hn).1
    rcases Nat.lt_succ_iff_lt_or_eq.mp hh with hlt | rfl
    · rw [List.getElem?_append_left hlt] at hn
      exact (hm.merges h l r f hn).append hlt.le
    · obtain ⟨rfl, rfl, rfl⟩ : a = l ∧ b = r ∧ freqAt nodes a + freqAt nodes b = f := by simpa using hn
      exact (hm.mergesFirst hs).append le_rfl

end MergedInOrder

/-- R95, R96: in a tree that HT_BUILD makes, the nodes from `FTLEN` on are internal, and each merged its two first candidates. -/
theorem buildTree_merges (h : buildTree cntMax ft = .ok t) : ∃ w, MergedInOrder ft.length t.node w := by
  match ft with
  | [] =>
    obtain rfl := Except.ok.inj h
    exact ⟨[], mergedInOrder_leavesOf []⟩
  | [_] => cases h
  | e :: e' :: rest =>
    obtain ⟨w, -, -, hm⟩ := mergeLoop_induction (P := MergedInOrder (e :: e' :: rest).length)
      (fun _ _ _ _ _ hm hs _ => hm.merge hs) (mergedInOrder_leavesOf _) (by simp) h
    exact ⟨w, hm⟩

/-- An HT_BUILD that ends OK leaves the builder's tree (R93). -/
theorem buildTree_of_exec {s t : State} (h : exec .htBuild s = .next t) (hok : t.status = .ok) :
    buildTree s.params.cntMax s.ft = .ok t.tree := by
  rcases execHtBuild_cases s with ⟨tree, htree, hexec⟩ | ⟨trap, htrap, hexec⟩
  · obtain rfl := Host.Outcome.next.inj (hexec.symm.trans h)
    exact htree
  · obtain rfl := Host.Outcome.next.inj (hexec.symm.trans h)
    have hkind : trap.kind = .ok := hok
    rcases buildTree_error htrap with ⟨-, rfl⟩ | ⟨-, hcap, -⟩
    · cases hkind
    · cases hkind.symm.trans hcap

/-- Settles O36: what the builder's loop keeps, at its end. -/
theorem everyMergeTakesTheTwoLeastCandidates : Obligations.EveryMergeTakesTheTwoLeastCandidates := by
  intro s t hexec hok h l r f hn
  obtain ⟨w, hm⟩ := buildTree_merges (buildTree_of_exec hexec hok)
  have hmerge := hm.merges h l r f hn
  exact ⟨hmerge.left, hmerge.right, hmerge.inOrder, hmerge.sum, hmerge.others⟩

/-- R106: after a merge at `h` every candidate but the new node has at least the frequency of the two merged. -/
theorem CodeTree.MergesFirst.freqAt_le_of_candidateAt_succ (hm : t.MergesFirst h l r f)
    (hn : t.node[h]? = some (.internal l r f)) (hc : t.candidateAt (h + 1) c) :
    c = h ∨ freqAt t.node r ≤ freqAt t.node c := by
  refine (Nat.lt_succ_iff_lt_or_eq.mp hc.1).symm.imp_right fun hlt => ?_
  obtain ⟨hc', hl, hr⟩ := (candidateAt_succ_of_lt hn hlt).mp hc
  exact (hm.others c hc' hl hr).freqAt_le

/-- R106: the next merge makes no lower frequency. It takes the new node, or two candidates that the last merge left. -/
theorem CodeTree.MergesFirst.freq_le_succ {l' r' : Handle} {f' : Nat} (hm : t.MergesFirst h l r f)
    (hn : t.node[h]? = some (.internal l r f)) (hm' : t.MergesFirst (h + 1) l' r' f') : f ≤ f' := by
  have hh : freqAt t.node h = f := freqAt_of_getElem? hn
  have hsum := hm.sum
  have hsum' := hm'.sum
  have hlr := hm.inOrder.freqAt_le
  rcases hm.freqAt_le_of_candidateAt_succ hn hm'.left with rfl | hl
  · omega
  · rcases hm.freqAt_le_of_candidateAt_succ hn hm'.right with rfl | hr <;> omega

/-- Settles O39: R97's order is by frequency first, and each merge leaves candidates of at least the frequency it took. -/
theorem mergeFrequenciesDoNotDecrease : Obligations.MergeFrequenciesDoNotDecrease := by
  intro s t hexec hok
  obtain ⟨w, hm⟩ := buildTree_merges (buildTree_of_exec hexec hok)
  constructor
  · intro h l r f hn
    have hmerge := hm.merges h l r f hn
    exact ⟨hmerge.inOrder.freqAt_le, fun c hc hl hr => (hmerge.others c hc hl hr).freqAt_le⟩
  · intro h hk hh
    obtain ⟨l, r, f, hn⟩ := hm.internals h hk (Nat.lt_of_succ_lt hh)
    obtain ⟨l', r', f', hn'⟩ := hm.internals (h + 1) (Nat.le_succ_of_le hk) hh
    rw [freqAt_of_getElem? hn, freqAt_of_getElem? hn']
    exact (hm.merges h l r f hn).freq_le_succ hn (hm.merges (h + 1) l' r' f' hn')

end Sys2Proof.Machine
end

section
/-! What CD_ENCODE does on a tree of R29 (R111, R126, R136): O48 and O49. -/

namespace Sys2Proof.Machine

open Sys2Proof

variable {s : State} {cntMax bitsMax : Option Nat} {t : CodeTree} {pre post syms : List Symbol} {codes : List (List Bit)}
  {x : Symbol} {c : List Bit} {trap : Trap}

/-- CD_ENCODE's fault (R111, R134). -/
theorem exec_cdEncode_of_error (h : encodeLoop s.params.bitsMax s.tree syms 0 [] = .error trap) :
    exec (.cdEncode syms) s = .next ({ s with bitbuf := [] }.afterFault trap.kind trap.info) := by
  simp only [exec, execCdEncode, h]; rfl

/-- R101: in a tree of R29 the lookup answers the code of a symbol, which is the only one. -/
theorem TreeInv.codeOf_eq (ht : TreeInv cntMax t) (hx : t.IsCode x c) : codeOf t x = some c := by
  obtain ⟨c', hc'⟩ := ht.exists_codeOf hx.mem_symbols
  rw [hc', ht.isCode_unique (codeOf_isCode hc') hx]

/-- R101: in a tree of R29 codes are what the lookup answers. -/
theorem TreeInv.codesOf (ht : TreeInv cntMax t) (hcodes : List.Forall₂ t.IsCode syms codes) : CodesOf t syms codes :=
  hcodes.imp fun _ _ hc => ht.codeOf_eq hc

/-- R101: the lookup finds no symbol that is at no leaf. -/
theorem codeOf_eq_none (hx : x ∉ t.symbols) : codeOf t x = none :=
  Option.eq_none_iff_forall_ne_some.mpr fun _ hc => hx (codeOf_isCode hc).mem_symbols

/-- R111: after symbols whose codes fit, CD_ENCODE's loop is at the next symbol, with these codes as its output. -/
theorem encodeLoop_append_of_codes (hcodes : CodesOf t pre codes) (hf : fits bitsMax codes.flatten.length = true) :
    encodeLoop bitsMax t (pre ++ post) 0 [] = encodeLoop bitsMax t post pre.length codes.flatten := by
  rw [encodeLoop_append, encodeLoop_of_codes hcodes (by simpa using hf)]
  simp

/-- Settles O48: the lookup answers the codes, and codes that fit together are appended one after the other. -/
theorem cdEncodeConcatenatesTheCodes : Obligations.CdEncodeConcatenatesTheCodes := fun _ syms _ ht hcodes hf =>
  ⟨decode_encode (.cdEncode syms),
    exec_cdEncode_of_ok (encodeLoop_of_codes (ht.codesOf hcodes) (by rwa [List.length_nil, Nat.zero_add]))⟩

/-- Settles O49: the loop passes over the symbols before `x`; then the lookup finds no code of `x`, or one that does not fit. -/
theorem cdEncodeFaultsAtTheFirstSymbolThatFails : Obligations.CdEncodeFaultsAtTheFirstSymbolThatFails := by
  intro s pre post x codes ht hcodes hf
  have hpre := encodeLoop_append_of_codes (post := x :: post) (ht.codesOf hcodes) hf
  constructor
  · intro hx
    apply exec_cdEncode_of_error (trap := ⟨.unknownSymbol, pre.length⟩)
    rw [hpre]
    simp only [encodeLoop, codeOf_eq_none hx]
  · intro c hc hbig
    apply exec_cdEncode_of_error (trap := ⟨.capacityExceeded, pre.length⟩)
    rw [hpre]
    simp only [encodeLoop, ht.codeOf_eq hc, hbig, Bool.false_eq_true, if_false]

end Sys2Proof.Machine
end

section
/-! How CD_DECODE reads a buffer (R117, R119): codes one after another, then the beginning of a code: O50 to O54. -/

namespace Sys2Proof.Machine

open Sys2Proof

variable {s : State} {cntMax : Option Nat} {t : CodeTree} {k h c i start : Nat} {syms done : List Symbol}
  {codes : List (List Bit)} {x : Symbol} {bits pre more tail : List Bit} {b : Bit} {trap : Trap}

/-- CD_DECODE's fault (R117, R134). -/
theorem exec_cdDecode_of_error (h : decodeBits s.tree s.bitbuf = .error trap) :
    exec .cdDecode s = .next (s.afterFault trap.kind trap.info) := by
  simp only [exec, execCdDecode, h]; rfl

/-- A node that is no leaf holds no symbol (R25). -/
theorem CodeTree.leafSymbol_eq_none_iff : t.leafSymbol h = none ↔ t.isLeafAt h = false := by
  unfold CodeTree.leafSymbol CodeTree.isLeafAt
  cases t.node[h]? with
  | none => simp
  | some n => cases n <;> simp [Node.isLeaf]

/-- A walk of one bit or more starts at no leaf (R102). -/
theorem CodeTree.leafSymbol_eq_none_of_walk (hw : t.walk h bits = some c) (hne : bits ≠ []) : t.leafSymbol h = none := by
  by_contra hsome
  obtain ⟨x, hl⟩ := Option.ne_none_iff_exists'.mp hsome
  exact hne (CodeTree.eq_nil_of_walk_leaf hl hw)

/-- R107: in a tree of R29 no code is empty. -/
theorem TreeInv.not_isCode_nil (ht : TreeInv cntMax t) (x : Symbol) : ¬ t.IsCode x [] := by
  intro hx
  rcases ht with rfl | ⟨k, ht⟩
  · obtain ⟨r, -, hr, -⟩ := hx
    cases hr
  · exact ht.isCode_ne_nil hx rfl

/-- R107: codes that are not empty have at least one bit for each symbol. -/
theorem length_le_of_isCode (hne : ∀ x, ¬ t.IsCode x []) (hcodes : List.Forall₂ t.IsCode syms codes) :
    syms.length ≤ codes.flatten.length := by
  induction hcodes with
  | nil => simp
  | @cons x c syms codes hc _ ih =>
    have hpos : 0 < c.length := List.length_pos_iff.mpr fun hnil => hne x (hnil ▸ hc)
    simp only [List.flatten_cons, List.length_append, List.length_cons]
    omega

/-- R117: bits that lead to a node that is no leaf end inside a code. -/
theorem decodeLoop_truncated (hw : t.walk h bits = some c) (hl : t.leafSymbol c = none) (hstart : start ≠ i + bits.length) :
    decodeLoop t bits i (some h) done start = .error ⟨.truncated, start⟩ := by
  induction bits generalizing h i with
  | nil => exact if_neg (by simpa using hstart)
  | cons b bits ih =>
    simp only [CodeTree.walk] at hw
    split at hw
    · next h' hc =>
      have hinner : t.leafSymbol h' = none := by
        rcases eq_or_ne bits [] with rfl | hne
        · obtain rfl := Option.some.inj hw
          exact hl
        · exact CodeTree.leafSymbol_eq_none_of_walk hw hne
      rw [decodeLoop_cons_internal hc hinner]
      exact ih hw (by rw [List.length_cons] at hstart; omega)
    · cases hw

/-- `bits` are the codes of `syms` one after another and then `tail`, which leads from the root to a node that is no leaf: what
CD_DECODE has read before its next bit (R117). -/
structure CodeTree.Reads (t : CodeTree) (bits : List Bit) (syms : List Symbol) (codes : List (List Bit)) (tail : List Bit) :
    Prop where
  isCode : List.Forall₂ t.IsCode syms codes
  eq_append : bits = codes.flatten ++ tail
  inside : ∃ r h, t.root = some r ∧ t.walk r tail = some h ∧ t.leafSymbol h = none

namespace CodeTree

/-- R117: bits that end inside a code give Truncated, with the index of the code's first bit. -/
theorem Reads.decodeBits_truncated (hr : t.Reads bits syms codes tail) (hne : ∀ x, ¬ t.IsCode x []) (htail : tail ≠ []) :
    decodeBits t bits = .error ⟨.truncated, codes.flatten.length⟩ := by
  obtain ⟨hcodes, rfl, r, h, hroot, hw, hl⟩ := hr
  have hpos : 0 < tail.length := List.length_pos_iff.mpr htail
  rw [decodeBits, decodeLoop_codes hne hcodes, Nat.zero_add, hroot]
  exact decodeLoop_truncated hw hl (by omega)

/-- R117: bits that end where a code ends decode to the symbols of the codes. -/
theorem Reads.decodeBits_ok (hr : t.Reads bits syms codes []) (hne : ∀ x, ¬ t.IsCode x []) :
    decodeBits t bits = .ok syms := by
  rw [hr.eq_append, List.append_nil]
  exact decodeBits_codes hne hr.isCode

/-- A part of a code that leaves out its end leads to a node that is no leaf (R105). -/
theorem IsCode.inside_of_append (hx : t.IsCode x (pre ++ more)) (hne : more ≠ []) :
    ∃ r h, t.root = some r ∧ t.walk r pre = some h ∧ t.leafSymbol h = none := by
  obtain ⟨r, c, hr, hw, -⟩ := hx
  rw [walk_append] at hw
  obtain ⟨h, hpre, hmore⟩ := Option.bind_eq_some_iff.mp hw
  exact ⟨r, h, hr, hpre, leafSymbol_eq_none_of_walk hmore hne⟩

namespace Built

/-- A built tree is a tree of R29. -/
theorem treeInv (ht : t.Built cntMax k) : TreeInv cntMax t := .inr ⟨k, ht⟩

/-- R100: a node that is no leaf has a child in either direction. -/
theorem exists_child (ht : t.Built cntMax k) (hh : h < 2 * k - 1) (hl : t.leafSymbol h = none) (b : Bit) :
    ∃ h', t.child (some h) b = some h' := by
  cases hn : t.node[h]? with
  | none => exact absurd (List.getElem?_eq_none_iff.mp hn) (Nat.not_le.mpr (ht.count ▸ hh))
  | some n =>
    cases n with
    | leaf x f => cases hl.symm.trans (leafSymbol_eq_some.mpr ⟨f, hn⟩)
    | internal l r f => exact ⟨_, child_eq_some.mpr ⟨h, l, r, f, rfl, hn, rfl⟩⟩

/-- R100: every node that a walk from the root reaches is one of the tree's. -/
theorem walk_lt (ht : t.Built cntMax k) (hw : t.walk (2 * k - 2) bits = some h) : h < 2 * k - 1 := by
  have hk := ht.twoEntries
  rcases List.eq_nil_or_concat' bits with rfl | ⟨pre, b, rfl⟩
  · obtain rfl := Option.some.inj hw
    omega
  · obtain ⟨q, -, hc⟩ := walk_concat.mp hw
    obtain ⟨_, l, r, f, ⟨rfl⟩, hn, rfl⟩ := child_eq_some.mp hc
    obtain ⟨-, hq, hl, hr⟩ := ht.child_lt hn
    split <;> omega

/-- R107: the root is no leaf. -/
theorem leafSymbol_root (ht : t.Built cntMax k) : t.leafSymbol (2 * k - 2) = none := by
  by_contra hsome
  obtain ⟨x, hl⟩ := Option.ne_none_iff_exists'.mp hsome
  exact ht.isCode_ne_nil ⟨_, _, ht.rootLast, rfl, hl⟩ rfl

/-- R119: on a built tree every bit sequence is codes one after another and the beginning of a code. -/
theorem exists_reads (ht : t.Built cntMax k) (bits : List Bit) : ∃ syms codes tail, t.Reads bits syms codes tail := by
  induction bits using List.reverseRecOn with
  | nil => exact ⟨[], [], [], .nil, rfl, _, _, ht.rootLast, rfl, ht.leafSymbol_root⟩
  | append_singleton bits b ih =>
    obtain ⟨syms, codes, tail, hcodes, rfl, r, h, hr, hw, hl⟩ := ih
    obtain rfl := Option.some.inj (ht.rootLast.symm.trans hr)
    obtain ⟨h', hc⟩ := ht.exists_child (ht.walk_lt hw) hl b
    have hw' : t.walk (2 * k - 2) (tail ++ [b]) = some h' := walk_concat.mpr ⟨h, hw, hc⟩
    cases hl' : t.leafSymbol h' with
    | none => exact ⟨syms, codes, tail ++ [b], hcodes, by simp, _, h', hr, hw', hl'⟩
    | some x =>
      have hx : List.Forall₂ t.IsCode [x] [tail ++ [b]] := .cons ⟨_, h', hr, hw', hl'⟩ .nil
      exact ⟨syms ++ [x], codes ++ [tail ++ [b]], [], List.rel_append hcodes hx, by simp, _, _, hr, rfl, ht.leafSymbol_root⟩

end Built

end CodeTree

/-- Settles O50: the buffer is the codes of the symbols, and in a tree of R29 no code is empty. -/
theorem cdDecodeOfCodesAnswersTheirSymbols : Obligations.CdDecodeOfCodesAnswersTheirSymbols :=
  fun _ _ _ _ _ ht hcodes hbits =>
    ⟨decode_of_hdr_eq .cdDecode rfl, exec_cdDecode_of_ok (hbits ▸ decodeBits_codes ht.not_isCode_nil hcodes)⟩

/-- CD_DECODE's Truncated (R117, R127). -/
theorem exec_cdDecode_truncated (hne : ∀ x, ¬ s.tree.IsCode x []) (hr : s.tree.Reads s.bitbuf syms codes tail)
    (htail : tail ≠ []) : exec .cdDecode s = .next (s.afterFault .truncated codes.flatten.length) :=
  exec_cdDecode_of_error (hr.decodeBits_truncated hne htail)

/-- Settles O51: the rest leads to a node that is no leaf; the empty tree has no child for the first bit. -/
theorem cdDecodeFaultsInsideACodeOrOnTheEmptyTree : Obligations.CdDecodeFaultsInsideACodeOrOnTheEmptyTree := by
  intro s ht
  constructor
  · intro syms codes tail r h hcodes hbits htail hroot hw hinner
    exact exec_cdDecode_truncated ht.not_isCode_nil
      ⟨hcodes, hbits, r, h, hroot, hw, CodeTree.leafSymbol_eq_none_iff.mpr hinner⟩ htail
  · intro hempty hbits
    obtain ⟨b, rest, hbits⟩ := List.exists_cons_of_ne_nil hbits
    apply exec_cdDecode_of_error (trap := ⟨.structuralViolation, 0⟩)
    rw [hempty, hbits]
    rfl

/-- R117, R119: on a built tree CD_DECODE answers the symbols of the codes that the buffer is made of, or Truncated. -/
theorem CodeTree.Built.exec_cdDecode_cases (ht : s.tree.Built s.params.cntMax k) :
    (∃ syms codes, List.Forall₂ s.tree.IsCode syms codes ∧ s.bitbuf = codes.flatten ∧
      exec .cdDecode s = .next (s.afterOk 0 (symElems syms))) ∨
    ∃ info, exec .cdDecode s = .next (s.afterFault .truncated info) := by
  have hne := ht.treeInv.not_isCode_nil
  obtain ⟨syms, codes, tail, hr⟩ := ht.exists_reads s.bitbuf
  rcases eq_or_ne tail [] with rfl | htail
  · exact .inl ⟨syms, codes, hr.isCode, by simpa using hr.eq_append, exec_cdDecode_of_ok (hr.decodeBits_ok hne)⟩
  · exact .inr ⟨_, exec_cdDecode_truncated hne hr htail⟩

/-- Settles O52: the two outcomes on a built tree. -/
theorem cdDecodeOnABuiltTreeNeverViolatesItsStructure : Obligations.CdDecodeOnABuiltTreeNeverViolatesItsStructure := by
  intro s k ht
  rcases ht.exec_cdDecode_cases with ⟨syms, codes, -, -, hexec⟩ | ⟨info, hexec⟩
  · exact ⟨_, hexec, .inl rfl⟩
  · exact ⟨_, hexec, .inr rfl⟩

/-- R107: codes of a built tree have at most `k - 1` bits for each symbol. -/
theorem CodeTree.Built.flatten_length_le (ht : t.Built cntMax k) (hcodes : List.Forall₂ t.IsCode syms codes) :
    codes.flatten.length ≤ syms.length * (k - 1) :=
  codesOf_length_le (ht.treeInv.codesOf hcodes) fun _ _ hc => ht.isCode_length_le (codeOf_isCode hc)

/-- Settles O53: each symbol answered took between 1 and `k - 1` bits, and a fault answers none. -/
theorem decodedLengthIsBoundedByTheBits : Obligations.DecodedLengthIsBoundedByTheBits := by
  intro s k ht
  rcases ht.exec_cdDecode_cases with ⟨syms, codes, hcodes, hbits, hexec⟩ | ⟨info, hexec⟩
  · have hlow := length_le_of_isCode ht.treeInv.not_isCode_nil hcodes
    have hhigh := Nat.div_le_of_le_mul (Nat.mul_comm _ _ ▸ ht.flatten_length_le hcodes)
    exact ⟨_, hexec, by simpa [hbits, symElems] using hlow, fun _ => by simpa [hbits, symElems] using hhigh⟩
  · exact ⟨_, hexec, Nat.zero_le _, fun h => nomatch h⟩

/-- R149: `p` zeros after the codes are `p / d` more codes of `d` zeros, and then `p % d` zeros, the beginning of another one. -/
theorem CodeTree.IsCode.reads_padding {d p : Nat} (hx : t.IsCode x (List.replicate d false)) (hd : 0 < d)
    (hcodes : List.Forall₂ t.IsCode syms codes) :
    t.Reads (codes.flatten ++ List.replicate p false) (syms ++ List.replicate (p / d) x)
      (codes ++ List.replicate (p / d) (List.replicate d false)) (List.replicate (p % d) false) where
  isCode := List.rel_append hcodes <| by
    generalize p / d = n
    induction n with
    | zero => exact .nil
    | succ n ih => exact .cons hx ih
  eq_append := by simp [Nat.div_add_mod']
  inside := by
    have hlt : p % d < d := Nat.mod_lt p hd
    have hmore : List.replicate (d - p % d) false ≠ [] := by simpa [Nat.sub_eq_zero_iff_le] using hlt
    refine IsCode.inside_of_append (x := x) ?_ hmore
    rwa [List.replicate_append_replicate, Nat.add_sub_cancel' hlt.le]

/-- Settles O54: the buffer is read as the codes, copies of the leftmost leaf's code, and the zeros that are left. -/
theorem paddingZerosDecodeAsTheLeftmostSymbol : Obligations.PaddingZerosDecodeAsTheLeftmostSymbol := by
  intro s k syms codes x d p ht hcodes hx hbits
  have hne := ht.treeInv.not_isCode_nil
  have hd : 0 < d := Nat.pos_of_ne_zero fun h0 => hne x (by simpa [h0] using hx)
  have hr := hx.reads_padding (p := p) hd hcodes
  rw [← hbits] at hr
  constructor
  · intro hp
    rw [hp] at hr
    exact exec_cdDecode_of_ok (hr.decodeBits_ok hne)
  · intro hp
    rw [exec_cdDecode_truncated hne hr (by simpa using hp)]
    simp [Nat.mul_comm]

end Sys2Proof.Machine
end

section
/-! The system commands (R121, R122): O20 and O21. -/

namespace Sys2Proof.Machine

open Sys2Proof

variable {s : State} {index v : Nat}

/-- R27: the register `ROOT` falls back on `NODECNT` when the tree has no root. -/
theorem rootRegister_eq_getD (t : CodeTree) : rootRegister t = t.root.getD t.node.length := by
  unfold rootRegister
  cases t.root with
  | none => rfl
  | some h => rfl

/-- The status registers are a list read at the index: 0 to 5 as R27 numbers them, and nothing after. -/
theorem State.readStatusRegister_eq_getElem? (s : State) (index : Nat) :
    s.readStatusRegister index =
      [s.status.code, s.errinfo, s.bitbuf.length, s.ft.length, s.tree.node.length,
        s.tree.root.getD s.tree.node.length][index]? := by
  match index with
  | 0 | 1 | 2 | 3 | 4 => rfl
  | 5 => exact congrArg some (rootRegister_eq_getD s.tree)
  | _ + 6 => rfl

/-- R27, R122: there is no register above index 5. -/
theorem State.readStatusRegister_eq_none (h : 5 < index) : s.readStatusRegister index = none := by
  rw [State.readStatusRegister_eq_getElem?]
  exact List.getElem?_eq_none h

/-- SYS_RDSR's OK outcome: the response, and no write (R122). -/
theorem exec_sysRdsr_of_some (h : s.readStatusRegister index = some v) :
    exec (.sysRdsr index) s = .next (s.respond ⟨.ok, 0, v, []⟩) := by
  simp only [exec, execSysRdsr, h]

/-- SYS_RDSR's fault: the response, and no write, not even of `STATUS` (R122, R137). -/
theorem exec_sysRdsr_of_none (h : s.readStatusRegister index = none) :
    exec (.sysRdsr index) s = .next (s.respond ⟨.illegalOperand, index, 0, []⟩) := by
  simp only [exec, execSysRdsr, h]

/-- Settles O20: the header selects SYS_RESET, which uses no operand; clearing all state gives the reset state, and the OK
that follows writes the `STATUS` and `ERRINFO` it already holds. -/
theorem sysResetReturnsEverythingToReset : Obligations.SysResetReturnsEverythingToReset := by
  intro s arg p
  refine ⟨decode_of_hdr_eq .sysReset rfl, ?_⟩
  calc exec .sysReset s
    _ = .next ((s.clear .allState).complete 0 []) := rfl
    _ = .next { State.resetOf s.params with pending := s.pending, responses := s.responses ++ [⟨.ok, 0, 0, []⟩] } := by
      rw [State.clear_allState]; rfl

/-- Settles O21: the header's command takes `ARG`, and its two outcomes are a register in the list and none. -/
theorem sysRdsrReadsTheStatusRegisters : Obligations.SysRdsrReadsTheStatusRegisters := by
  intro s index p
  refine ⟨decode_of_hdr_eq (.sysRdsr index) rfl, rfl, fun v hv => ?reads, fun hbig => ?faults⟩
  case reads => exact exec_sysRdsr_of_some ((s.readStatusRegister_eq_getElem? index).trans hv)
  case faults => exact exec_sysRdsr_of_none (State.readStatusRegister_eq_none hbig)

end Sys2Proof.Machine
end

section
/-! Commands with an illegal header, and what is no command (R132, R145, R146): O3 and O8. -/

namespace Sys2Proof.Machine

open Sys2Proof

variable {s : State} {c : Command} {rest : List HostEvent}

/-- R63, R132: a command whose header is illegal is answered IllegalCommand, and writes nothing but `STATUS` and `ERRINFO`. -/
theorem issueCommand_of_illegalHeader (h : IllegalHeader c.hdr) :
    issueCommand c s = .next (s.afterFault .illegalCommand c.hdr.toNat) := by
  obtain ⟨flaw, hd⟩ := (headerIsRejectedExactlyInTheThreeIllegalCases c).mpr h
  simp only [issueCommand, hd]
  rfl

/-- Settles O3: the waiting command is taken from the inputs, and its header is checked first. -/
theorem illegalHeaderIsAnsweredIllegalCommand : Obligations.IllegalHeaderIsAnsweredIllegalCommand := by
  intro s c rest hp h
  rw [step_of_pending_command hp]
  exact issueCommand_of_illegalHeader h

/-- R145: an idle block holds its state. -/
theorem step_of_idle (hp : s.pending = []) : step s = .next s := by
  simp only [step, hp]

/-- R146: the reset event clears all state, whether or not a command is in progress. -/
theorem step_of_pending_reset {e : HostEvent} (hp : s.pending = e :: rest) (he : e = .reset ∨ ∃ c, e = .resetDuring c) :
    step s = .next ((s.withPending rest).clear .allState) := by
  rcases he with rfl | ⟨c, rfl⟩ <;> simp only [step, hp] <;> rfl

/-- Settles O8: the idle step and the reset event; clearing all state gives the reset state. -/
theorem nothingButACommandOrResetChangesTheState : Obligations.NothingButACommandOrResetChangesTheState := by
  refine ⟨fun _ hp => step_of_idle hp, fun s e rest hp he => ?_⟩
  rw [step_of_pending_reset hp he, State.clear_allState]
  rfl

end Sys2Proof.Machine
end

section
/-! Several instances (R144): O58. -/

namespace Sys2Proof.Machine

open Sys2Proof

/-- R144: a step taken at place `k` writes the list there, with what the step of the state there gives. Writing beyond the
list changes nothing, so a place with no state needs no case of its own. -/
theorem stepInstance_eq_next {k : Nat} {sys sys' : Instances} :
    stepInstance k sys = .next sys' ↔ ∃ t, sys' = sys.set k t ∧ ∀ s, sys[k]? = some s → step s = .next t := by
  unfold stepInstance
  cases hk : sys[k]? with
  | none =>
    have hset (t : State) : sys.set k t = sys := List.set_eq_of_length_le (List.getElem?_eq_none_iff.mp hk)
    constructor
    · intro h
      exact ⟨State.reset, by rw [hset, Host.Outcome.next.inj h], nofun⟩
    · rintro ⟨t, rfl, -⟩
      rw [hset]
  | some s => cases hs : step s <;> simp [hs, eq_comm]

/-- Settles O58: the two steps write different places of the list, and each reads only its own. -/
theorem stepsOfTwoInstancesCommute : Obligations.StepsOfTwoInstancesCommute := by
  intro sys₀ sys₁ sys₂ j k hjk hj hk
  obtain ⟨t, rfl, ht⟩ := stepInstance_eq_next.mp hj
  obtain ⟨v, rfl, hv⟩ := stepInstance_eq_next.mp hk
  rw [List.getElem?_set_ne hjk] at hv
  refine ⟨⟨sys₀.set k v, ?kFirst, ?jSecond⟩, List.getElem?_set_ne hjk, List.length_set⟩
  case kFirst => exact stepInstance_eq_next.mpr ⟨v, rfl, hv⟩
  case jSecond =>
    refine stepInstance_eq_next.mpr ⟨t, List.set_comm t v hjk, ?_⟩
    rwa [List.getElem?_set_ne hjk.symm]

end Sys2Proof.Machine
end

section
/-! Which command raises which status (R125), and CapacityExceeded only under a capacity (R131): O16 and O17. -/

namespace Sys2Proof.Machine

open Sys2Proof

variable {i : Instr} {s t : State} {r : Response} {trap : Trap}

/-- R10: some capacity of the block is a number. -/
def State.Bounded (s : State) : Prop := s.params.kMax ≠ none ∨ s.params.cntMax ≠ none ∨ s.params.bitsMax ≠ none

/-- R125, the column "raised by", row by row, with R129's table of one entry and R131's capacity. IllegalCommand has no
row: it is the header's. -/
inductive Raises (s : State) (i : Instr) : Status → Prop
  | unknownSymbol (hi : i.opcode ∈ [.CD_ENCODE, .HT_GETCODE]) : Raises s i .unknownSymbol
  | truncated (hi : i.opcode = .CD_DECODE) : Raises s i .truncated
  | structuralViolation (hi : i.opcode ∈ [.CD_DECODE, .HT_DESCEND]) : Raises s i .structuralViolation
  | degenerateAlphabet (hi : i.opcode = .HT_BUILD) (hft : s.ft.length = 1) : Raises s i .degenerateAlphabet
  | capacityExceeded (hi : i.opcode ∈ [.BB_APPEND, .BB_UNPACK, .FT_COUNT, .FT_LOAD, .HT_BUILD, .CD_ENCODE])
      (hs : s.Bounded) : Raises s i .capacityExceeded
  | illegalOperand (hi : i.opcode ∈ [.SYS_RDSR, .BB_UNPACK, .FT_LOAD, .HT_GETCODE, .HT_DESCEND, .HT_ISLEAF, .HT_NODE]) :
      Raises s i .illegalOperand

/-! ## CapacityExceeded only under a capacity -/

/-- What does not fit passes a capacity that is a number (R131). -/
theorem ne_none_of_fits_false {bound : Option Nat} {n : Nat} (h : fits bound n = false) : bound ≠ none := by
  rintro rfl
  cases h

/-- R86, R131: FT_COUNT faults only under `K_MAX` or `CNT_MAX`. -/
theorem countTable_error_bounded {p : Params} {syms : List Symbol} (h : countTable p syms = .error trap) :
    p.kMax ≠ none ∨ p.cntMax ≠ none := by
  by_contra hnone
  push Not at hnone
  obtain ⟨hk, hc⟩ := hnone
  obtain ⟨ft, hft⟩ := countTable_isOk (p := p) (syms := syms) (by simp [hk]) (by simp [hc])
  cases hft.symm.trans h

/-- R87, R131: FT_LOAD raises CapacityExceeded only under `K_MAX` or `CNT_MAX`. -/
theorem loadLoop_capacityExceeded_bounded {p : Params} {entries : List Entry} {j : Nat} {seen : List Symbol}
    (h : loadLoop p entries j seen = some trap) (hk : trap.kind = .capacityExceeded) :
    p.kMax ≠ none ∨ p.cntMax ≠ none := by
  induction entries generalizing j seen with
  | nil => cases h
  | cons e rest ih =>
    rcases loadFault_cases p seen j e with ⟨-, hf⟩ | ⟨-, -, hfull, hf⟩ | ⟨-, -, -, -, hf⟩ <;>
      simp only [loadLoop, hf] at h
    · cases h
      cases hk
    · exact hfull.imp ne_none_of_fits_false ne_none_of_fits_false
    · exact ih h

/-- R93, R131: HT_BUILD's loop faults only under `CNT_MAX`. -/
theorem mergeLoop_error_bounded {cntMax : Option Nat} {k : Nat} {nodes : List Node} {w : List Handle}
    (h : mergeLoop cntMax k nodes w = .error trap) : cntMax ≠ none := by
  induction k generalizing nodes w with
  | zero => cases h
  | succ k ih =>
    simp only [mergeLoop] at h
    split at h
    · split at h
      · exact ih h
      · next hf => exact ne_none_of_fits_false (by simpa using hf)
    · cases h

/-- R93, R99: HT_BUILD raises DegenerateAlphabet on a table of one entry, and else CapacityExceeded under `CNT_MAX`. -/
theorem buildTree_error_bounded {cntMax : Option Nat} {ft : List Entry} (h : buildTree cntMax ft = .error trap) :
    (ft.length = 1 ∧ trap.kind = .degenerateAlphabet) ∨ (cntMax ≠ none ∧ trap.kind = .capacityExceeded) := by
  match ft, h with
  | [_], h => cases h; exact .inl ⟨rfl, rfl⟩
  | _ :: _ :: _, h => exact .inr ⟨mergeLoop_error_bounded h, (mergeLoop_error h).1⟩

/-- R111, R131: CD_ENCODE raises CapacityExceeded only under `BITS_MAX`. -/
theorem encodeLoop_error_bounded {bitsMax : Option Nat} {tree : CodeTree} {syms : List Symbol} {j : Nat} {out : List Bit}
    (h : encodeLoop bitsMax tree syms j out = .error trap) :
    trap.kind = .unknownSymbol ∨ (bitsMax ≠ none ∧ trap.kind = .capacityExceeded) := by
  induction syms generalizing j out with
  | nil => cases h
  | cons x rest ih =>
    simp only [encodeLoop] at h
    split at h
    · cases h
      exact .inl rfl
    · split at h
      · exact ih h
      · next hf =>
        cases h
        exact .inr ⟨ne_none_of_fits_false (by simpa using hf), rfl⟩

/-! ## The statuses -/

/-- Every command answers once, with OK or with a status of its rows of R125. -/
theorem exec_raises (i : Instr) (s : State) : ∃ t r, exec i s = .next t ∧ t.responses = s.responses ++ [r] ∧
    (r.st = .ok ∨ Raises s i r.st) := by
  cases i with
  | sysReset | bbClear | bbLen | bbPack | ftRead => exact ⟨_, _, rfl, rfl, .inl rfl⟩
  | sysRdsr index =>
    cases hv : s.readStatusRegister index with
    | some v => exact ⟨_, _, exec_sysRdsr_of_some hv, rfl, .inl rfl⟩
    | none => exact ⟨_, _, exec_sysRdsr_of_none hv, rfl, .inr (.illegalOperand (by simp [Instr.opcode]))⟩
  | bbAppend b =>
    rcases execBbAppend_cases b s with ⟨hfull, h⟩ | ⟨-, h⟩
    · exact ⟨_, _, h, rfl, .inr (.capacityExceeded (by simp [Instr.opcode]) (.inr (.inr (by simp [hfull]))))⟩
    · exact ⟨_, _, h, rfl, .inl rfl⟩
  | bbUnpack n bytes =>
    rcases execBbUnpack_cases n bytes s with ⟨-, h⟩ | ⟨-, hf, h⟩ | ⟨-, -, h⟩
    · exact ⟨_, _, h, rfl, .inr (.illegalOperand (by simp [Instr.opcode]))⟩
    · exact ⟨_, _, h, rfl, .inr (.capacityExceeded (by simp [Instr.opcode]) (.inr (.inr (ne_none_of_fits_false hf))))⟩
    · exact ⟨_, _, h, rfl, .inl rfl⟩
  | ftCount syms =>
    rcases execFtCount_cases syms s with ⟨ft, -, h⟩ | ⟨j, -, herr, h⟩
    · exact ⟨_, _, h, rfl, .inl rfl⟩
    · exact ⟨_, _, h, rfl, .inr (.capacityExceeded (by simp [Instr.opcode])
        ((countTable_error_bounded herr).imp_right .inl))⟩
  | ftLoad entries =>
    rcases execFtLoad_cases entries s with ⟨-, h⟩ | ⟨⟨kind, info⟩, htrap, h⟩
    · exact ⟨_, _, h, rfl, .inl rfl⟩
    · rcases loadLoop_kind htrap with rfl | rfl
      · exact ⟨_, _, h, rfl, .inr (.illegalOperand (by simp [Instr.opcode]))⟩
      · exact ⟨_, _, h, rfl, .inr (.capacityExceeded (by simp [Instr.opcode])
          ((loadLoop_capacityExceeded_bounded htrap rfl).imp_right .inl))⟩
  | htBuild =>
    rcases execHtBuild_cases s with ⟨tree, -, h⟩ | ⟨⟨kind, info⟩, htrap, h⟩
    · exact ⟨_, _, h, rfl, .inl rfl⟩
    · rcases buildTree_error_bounded htrap with ⟨hft, rfl⟩ | ⟨hc, rfl⟩
      · exact ⟨_, _, h, rfl, .inr (.degenerateAlphabet rfl hft)⟩
      · exact ⟨_, _, h, rfl, .inr (.capacityExceeded (by simp [Instr.opcode]) (.inr (.inl hc)))⟩
  | htGetcode arg =>
    rcases execHtGetcode_cases arg s with ⟨-, h⟩ | ⟨-, -, h⟩ | ⟨c, -, -, h⟩
    · exact ⟨_, _, h, rfl, .inr (.illegalOperand (by simp [Instr.opcode]))⟩
    · exact ⟨_, _, h, rfl, .inr (.unknownSymbol (by simp [Instr.opcode]))⟩
    · exact ⟨_, _, h, rfl, .inl rfl⟩
  | htDescend h b =>
    match hn : nodeOfArg s.tree h with
    | none => exact ⟨_, _, exec_htDescend_of_none hn, rfl, .inr (.illegalOperand (by simp [Instr.opcode]))⟩
    | some (.leaf _ _) =>
      exact ⟨_, _, exec_htDescend_of_leaf hn, rfl, .inr (.structuralViolation (by simp [Instr.opcode]))⟩
    | some (.internal _ _ _) => exact ⟨_, _, exec_htDescend_of_internal hn, rfl, .inl rfl⟩
  | htIsleaf h =>
    cases hn : nodeOfArg s.tree h with
    | none => exact ⟨_, _, exec_htIsleaf_of_none hn, rfl, .inr (.illegalOperand (by simp [Instr.opcode]))⟩
    | some n => exact ⟨_, _, exec_htIsleaf_of_node hn, rfl, .inl rfl⟩
  | htNode h =>
    cases hn : nodeOfArg s.tree h with
    | none => exact ⟨_, _, exec_htNode_of_none hn, rfl, .inr (.illegalOperand (by simp [Instr.opcode]))⟩
    | some n => exact ⟨_, _, exec_htNode_of_node hn, rfl, .inl rfl⟩
  | cdEncode syms =>
    rcases execCdEncode_cases syms s with ⟨out, -, h⟩ | ⟨⟨kind, info⟩, htrap, h⟩
    · exact ⟨_, _, h, rfl, .inl rfl⟩
    · rcases encodeLoop_error_bounded htrap with rfl | ⟨hb, rfl⟩
      · exact ⟨_, _, h, rfl, .inr (.unknownSymbol (by simp [Instr.opcode]))⟩
      · exact ⟨_, _, h, rfl, .inr (.capacityExceeded (by simp [Instr.opcode]) (.inr (.inr hb)))⟩
  | cdDecode =>
    rcases execCdDecode_cases s with ⟨out, -, h⟩ | ⟨⟨kind, info⟩, htrap, h⟩
    · exact ⟨_, _, h, rfl, .inl rfl⟩
    · rcases decodeLoop_error htrap with rfl | rfl
      · exact ⟨_, _, h, rfl, .inr (.truncated rfl)⟩
      · exact ⟨_, _, h, rfl, .inr (.structuralViolation (by simp [Instr.opcode]))⟩

/-- Settles O16: an OK command raises nothing, and a fault is in the row of its status. -/
theorem eachStatusIsRaisedOnlyByTheCommandsOfItsRow : Obligations.EachStatusIsRaisedOnlyByTheCommandsOfItsRow := by
  intro i s
  obtain ⟨t, ⟨st, info, val, q⟩, h, hr, hst⟩ := exec_raises i s
  refine ⟨t, _, h, hr, ?_⟩
  dsimp only at hst ⊢
  rcases hst with rfl | hraises
  · simp
  · cases hraises with
    | unknownSymbol hi | truncated hi | structuralViolation hi | capacityExceeded hi _ | illegalOperand hi => simpa using hi
    | degenerateAlphabet hi hft => simpa using And.intro hi hft

/-- Settles O17: an unbounded block has no capacity to exceed. -/
theorem unboundedBlockNeverExceedsCapacity : Obligations.UnboundedBlockNeverExceedsCapacity := by
  intro i s hk hc hb
  obtain ⟨t, r, h, hr, hst⟩ := exec_raises i s
  refine ⟨t, r, h, hr, fun hcap => ?_⟩
  rw [hcap] at hst
  cases hst.resolve_left (by decide) with
  | capacityExceeded _ hs => simp [State.Bounded, hk, hc, hb] at hs

end Sys2Proof.Machine
end

section
/-! What a fault clears and what it leaves (R134): O15. -/

namespace Sys2Proof.Machine

open Sys2Proof

variable {i : Instr} {s t : State} {r : Response}

/-- R134: the destinations of R61 that a fault clears, by mnemonic. -/
theorem destOf_eq_of_opcode (i : Instr) :
    (i.opcode ∈ [.BB_APPEND, .BB_UNPACK, .CD_ENCODE] → i.opcode ≠ .SYS_RDSR ∧ destOf i = .bitbuf) ∧
    (i.opcode ∈ [.FT_COUNT, .FT_LOAD] → i.opcode ≠ .SYS_RDSR ∧ destOf i = .ft) ∧
    (i.opcode = .HT_BUILD → i.opcode ≠ .SYS_RDSR ∧ destOf i = .tree) ∧
    (i.opcode ∉ [.SYS_RDSR, .BB_APPEND, .BB_UNPACK, .CD_ENCODE, .FT_COUNT, .FT_LOAD, .HT_BUILD] →
      i.opcode ∉ [.SYS_RESET, .BB_CLEAR] → i.opcode ≠ .SYS_RDSR ∧ destOf i = .none) := by
  cases i <;> simp [Instr.opcode, destOf]

/-- R76, R121, R125: SYS_RESET and BB_CLEAR stand in no row. -/
theorem Raises.opcode_not_mem {k : Status} (h : Raises s i k) : i.opcode ∉ [.SYS_RESET, .BB_CLEAR] := by
  cases h with
  | unknownSymbol hi | truncated hi | structuralViolation hi | degenerateAlphabet hi _ | capacityExceeded hi _
  | illegalOperand hi =>
    intro hi'
    rcases List.mem_pair.mp hi' with e | e <;> simp [e] at hi

/-- R134: a fault writes the response's `ST` and `INFO`, but in SYS_RDSR, and clears the destination. -/
theorem exec_of_fault (h : exec i s = .next t) (hr : t.responses = s.responses ++ [r]) (hf : r.st ≠ .ok) :
    (i.opcode = .SYS_RDSR → t = s.respond r) ∧ (i.opcode ≠ .SYS_RDSR → t = (s.clear (destOf i)).afterResponse r) := by
  rcases exec_cases i s with ⟨index, r', rfl, hx, -⟩ | ⟨hi, kind, info, -, -, hx⟩ | ⟨-, s', val, q, hw, hx⟩ <;>
    obtain rfl := Host.Outcome.next.inj (hx.symm.trans h)
  · obtain rfl : r' = r := by simpa using hr
    exact ⟨fun _ => rfl, fun hne => absurd rfl hne⟩
  · obtain ⟨-, -, hresp, -⟩ := (writesOnly_clear (destOf i) s).frame
    obtain rfl : (⟨kind, info, 0, []⟩ : Response) = r := by simpa [State.raise, hresp] using hr
    exact ⟨fun he => absurd he hi, fun _ => rfl⟩
  · obtain ⟨-, -, hresp, -⟩ := hw.frame
    obtain rfl : (⟨.ok, 0, val, q⟩ : Response) = r := by simpa [State.complete, hresp] using hr
    exact absurd rfl hf

/-- Settles O15: a fault clears the command's destination, which the lists give by mnemonic; SYS_RESET and BB_CLEAR, which
have a destination and no list, do not fault. -/
theorem faultClearsTheDestinationAndNothingElse : Obligations.FaultClearsTheDestinationAndNothingElse := by
  refine ⟨fun _ _ hc => issueCommand_of_illegalHeader hc, fun i s => ?_⟩
  obtain ⟨t, r, h, hr, hst⟩ := exec_raises i s
  refine ⟨t, r, h, hr, fun hf => ?_⟩
  obtain ⟨hval, hq⟩ := (exec_response_of_status h hr).2 hf
  obtain ⟨hrdsr, hclear⟩ := exec_of_fault h hr hf
  obtain ⟨hbits, hft, htree, hnone⟩ := destOf_eq_of_opcode i
  have hleft {d : Dest} (hd : i.opcode ≠ .SYS_RDSR ∧ destOf i = d) : t = (s.clear d).afterResponse r :=
    hd.2 ▸ hclear hd.1
  exact ⟨hval, hq, hrdsr, fun hi => hleft (hbits hi), fun hi => hleft (hft hi), fun hi => hleft (htree hi),
    fun hi => hleft (hnone hi (hst.resolve_left hf).opcode_not_mem)⟩

end Sys2Proof.Machine
end

section
/-! A command repeated at once (R138): O18. -/

namespace Sys2Proof.Machine

open Sys2Proof

variable {i : Instr}

/-- R80: the buffer and the status that BB_UNPACK leaves are functions of the parameters and the operands. -/
theorem exec_bbUnpack_of_params (p : Params) (n : Nat) (bytes : List Byte) :
    ∃ bits st info, ∀ s : State, s.params = p →
      exec (.bbUnpack n bytes) s = .next ({ s with bitbuf := bits }.afterResponse ⟨st, info, 0, []⟩) := by
  by_cases hlen : bytes.length < ceil8 n
  · exact ⟨[], .illegalOperand, bytes.length, fun s _ => exec_bbUnpack_of_short hlen⟩
  · cases hf : fits p.bitsMax n with
    | false => exact ⟨[], .capacityExceeded, n, fun s hs => exec_bbUnpack_of_not_fits (by omega) (hs ▸ hf)⟩
    | true => exact ⟨unpackBits n bytes, .ok, 0, fun s hs => exec_bbUnpack_of_fits (by omega) (hs ▸ hf)⟩

/-- R87: the table and the status that FT_LOAD leaves are functions of the parameters and the entries. -/
theorem exec_ftLoad_of_params (p : Params) (entries : List Entry) :
    ∃ ft st info, ∀ s : State, s.params = p →
      exec (.ftLoad entries) s = .next ({ s with ft := ft }.afterResponse ⟨st, info, 0, []⟩) := by
  cases h : loadLoop p entries 0 [] with
  | none => exact ⟨entries, .ok, 0, fun s hs => exec_ftLoad_of_inv (hs ▸ loadLoop_none_inv (FtInv.nil p) h)⟩
  | some trap => exact ⟨[], trap.kind, trap.info, fun s hs => exec_ftLoad_of_trap (hs ▸ h)⟩

/-- R111: the buffer and the status that CD_ENCODE leaves are functions of `BITS_MAX`, the tree and the symbols. -/
theorem exec_cdEncode_of_tree (bitsMax : Option Nat) (tree : CodeTree) (syms : List Symbol) :
    ∃ bits st info, ∀ s : State, s.params.bitsMax = bitsMax → s.tree = tree →
      exec (.cdEncode syms) s = .next ({ s with bitbuf := bits }.afterResponse ⟨st, info, 0, []⟩) := by
  cases h : encodeLoop bitsMax tree syms 0 [] with
  | ok out => exact ⟨out, .ok, 0, fun s hb ht => exec_cdEncode_of_ok (hb ▸ ht ▸ h)⟩
  | error trap => exact ⟨[], trap.kind, trap.info, fun s hb ht => exec_cdEncode_of_error (hb ▸ ht ▸ h)⟩

/-- R122: answering SYS_RDSR changes no register. -/
theorem State.readStatusRegister_respond (s : State) (r : Response) (index : Nat) :
    (s.respond r).readStatusRegister index = s.readStatusRegister index := by
  simp only [State.readStatusRegister_eq_getElem?]
  rfl

/-- `i`, run in `s` and at once again, gives the same response, whatever its status. -/
def Repeats (i : Instr) (s : State) : Prop := ∃ t r t', exec i s = .next t ∧ t.responses = s.responses ++ [r] ∧
  exec i t = .next t' ∧ t'.responses = t.responses ++ [r]

/-- R47: a command without a destination leaves what it reads. -/
theorem repeats_of_dest_none (hd : destOf i = .none) (hi : i.opcode ≠ .SYS_RDSR) (s : State) : Repeats i s := by
  obtain ⟨r, h⟩ := exec_of_dest_none hd hi s
  exact ⟨_, r, _, h s (.refl s), rfl, h _ (.afterResponse s r), rfl⟩

/-- R138: no command but BB_APPEND reads what it writes. -/
theorem repeats_of_not_bbAppend (hi : i.opcode ≠ .BB_APPEND) (s : State) : Repeats i s := by
  cases i with
  | bbAppend b => exact absurd rfl hi
  | sysReset | bbClear => exact ⟨_, _, _, rfl, rfl, rfl, rfl⟩
  | sysRdsr index =>
    have hread (r : Response) := s.readStatusRegister_respond r index
    cases hv : s.readStatusRegister index with
    | some v => exact ⟨_, _, _, exec_sysRdsr_of_some hv, rfl, exec_sysRdsr_of_some ((hread _).trans hv), rfl⟩
    | none => exact ⟨_, _, _, exec_sysRdsr_of_none hv, rfl, exec_sysRdsr_of_none ((hread _).trans hv), rfl⟩
  | bbUnpack n bytes =>
    obtain ⟨bits, st, info, h⟩ := exec_bbUnpack_of_params s.params n bytes
    exact ⟨_, _, _, h s rfl, rfl, h _ rfl, rfl⟩
  | ftCount syms =>
    obtain ⟨ft, st, info, h⟩ := exec_ftCount_of_params s.params syms
    exact ⟨_, _, _, h s rfl, rfl, h _ rfl, rfl⟩
  | ftLoad entries =>
    obtain ⟨ft, st, info, h⟩ := exec_ftLoad_of_params s.params entries
    exact ⟨_, _, _, h s rfl, rfl, h _ rfl, rfl⟩
  | htBuild =>
    obtain ⟨tree, st, info, h⟩ := exec_htBuild_of_ft s.params.cntMax s.ft
    exact ⟨_, _, _, h s rfl rfl, rfl, h _ rfl rfl, rfl⟩
  | cdEncode syms =>
    obtain ⟨bits, st, info, h⟩ := exec_cdEncode_of_tree s.params.bitsMax s.tree syms
    exact ⟨_, _, _, h s rfl rfl, rfl, h _ rfl rfl, rfl⟩
  | bbLen | bbPack | ftRead | htGetcode _ | htDescend _ _ | htIsleaf _ | htNode _ | cdDecode =>
    exact repeats_of_dest_none rfl (by simp [Instr.opcode]) s

/-- Settles O18: a command that is not BB_APPEND gives the same response twice, so a failed one does. -/
theorem repeatedFailureGivesTheSameResponse : Obligations.RepeatedFailureGivesTheSameResponse := by
  intro i s hi
  obtain ⟨t, r, t', h, hr, h', hr'⟩ := repeats_of_not_bbAppend hi s
  exact ⟨t, r, h, hr, fun _ => ⟨t', h', hr'⟩⟩

end Sys2Proof.Machine
end
